-- ==== Sys2Proof/Word.lean ====
section
/-! DEFINITION. The widths of the crust-8 CHIP-8 core (spec rules R7, R9, R10, R75): names for bit vectors, nothing else. -/

namespace Sys2Proof

/-- An 8-bit value: a general register, a timer, a memory cell, an immediate `kk` (R7, R10). -/
abbrev Byte := BitVec 8

/-- A 16-bit value: an opcode, PC, I, a stack entry (R7, R10). -/
abbrev Word := BitVec 16

/-- The 12-bit address field `nnn` of an opcode (R75). -/
abbrev Addr12 := BitVec 12

/-- A 4-bit slice of an opcode: a register index `x` or `y`, a row count `n` (R9, R75). -/
abbrev Nibble := BitVec 4

end Sys2Proof
end

