-- ==== Sys2Proof/Config.lean ====
section
/-! DEFINITION. What is fixed for a machine and is not state (spec rules R8, R37): the shape of the construct parameters,
and the free values. The parameters' values stand in Machine/Parameters.lean. -/

namespace Sys2Proof

/-- What a store below 0x200 does (R8, R55, D2). -/
inductive LowWritePolicy where
  /-- It raises ReservedWrite. -/
  | fault
  /-- It is carried out. -/
  | allow
deriving DecidableEq, Repr

/-- The parameters the source leaves open, each a named argument of the model (R8). -/
structure Params where
  /-- `FONT_BASE`, a 12-bit address (D3). -/
  fontBase : Addr12
  /-- `FONT_DATA`, 80 bytes, glyph 0 first (D4). -/
  fontData : Vector Byte 80
  /-- `LOW_WRITE_POLICY` (D2). -/
  lowWritePolicy : LowWritePolicy
deriving DecidableEq, Repr

/-- "`FONT_BASE` must satisfy `FONT_BASE + 80 <= 0x200`, so the font lies in the reserved region" (R8). -/
def Params.valid (p : Params) : Bool := p.fontBase.toNat + 80 ≤ 0x200

/-- The random byte of the `k`-th execution of Cxkk: a FREE VALUE, under no law (R8, R133, D5). -/
opaque Config.rnd : Nat → Byte

end Sys2Proof
end

