-- ==== Sys2Proof/Machine/Parameters.lean ====
section
/-! DEFINITION. The values this spec takes for the parameters of R8 (decisions D2, D3, D4). Every operation that depends
on one takes the parameters as an argument; `exec`, `step` and the host operations run with `specParams`. -/

namespace Sys2Proof.Machine

/-- `FONT_BASE` = 0x000 (R8, D3). UNVERIFIED (log entry 2), unsafe: the source gives no number. -/
def fontBase : Addr12 := 0x000#12

/-- The conventional CHIP-8 hex font, five bytes a digit, bit 7 the leftmost pixel (R33, D4). UNVERIFIED (log entry 3),
unsafe: the bytes are not in the source. -/
def fontData : Vector Byte 80 :=
  #v[0xF0#8, 0x90#8, 0x90#8, 0x90#8, 0xF0#8, 0x20#8, 0x60#8, 0x20#8, 0x20#8, 0x70#8]  -- 0 1
  ++ #v[0xF0#8, 0x10#8, 0xF0#8, 0x80#8, 0xF0#8, 0xF0#8, 0x10#8, 0xF0#8, 0x10#8, 0xF0#8]  -- 2 3
  ++ #v[0x90#8, 0x90#8, 0xF0#8, 0x10#8, 0x10#8, 0xF0#8, 0x80#8, 0xF0#8, 0x10#8, 0xF0#8]  -- 4 5
  ++ #v[0xF0#8, 0x80#8, 0xF0#8, 0x90#8, 0xF0#8, 0xF0#8, 0x10#8, 0x20#8, 0x40#8, 0x40#8]  -- 6 7
  ++ #v[0xF0#8, 0x90#8, 0xF0#8, 0x90#8, 0xF0#8, 0xF0#8, 0x90#8, 0xF0#8, 0x10#8, 0xF0#8]  -- 8 9
  ++ #v[0xF0#8, 0x90#8, 0xF0#8, 0x90#8, 0x90#8, 0xE0#8, 0x90#8, 0xE0#8, 0x90#8, 0xE0#8]  -- A B
  ++ #v[0xF0#8, 0x80#8, 0x80#8, 0x80#8, 0xF0#8, 0xE0#8, 0x90#8, 0x90#8, 0x90#8, 0xE0#8]  -- C D
  ++ #v[0xF0#8, 0x80#8, 0xF0#8, 0x80#8, 0xF0#8, 0xF0#8, 0x80#8, 0xF0#8, 0x80#8, 0x80#8]  -- E F

/-- `LOW_WRITE_POLICY` = fault (R8, D2). UNVERIFIED (log entry 4), safe. -/
def lowWritePolicy : LowWritePolicy := .fault

/-- The parameters of this spec's machine (R8). -/
def specParams : Params where
  fontBase := fontBase
  fontData := fontData
  lowWritePolicy := lowWritePolicy

end Sys2Proof.Machine
end

