-- ==== Sys2Proof/Syntax.lean ====
section
/-! DEFINITION. The 35 instructions of the opcode map (spec rule R80), one constructor per row of the opcode table and
in its order. Operands are the unsigned fields of R75: `nnn` 12 bits, `kk` 8 bits, `x`, `y` and `n` 4 bits. -/

namespace Sys2Proof

/-- The instruction set (R2, R80). -/
inductive Instr where
  /-- 00E0, CLS: clear the screen (R170). -/
  | cls
  /-- 00EE, RET: return (R100). -/
  | ret
  /-- 0nnn, SYS nnn, but for 00E0 and 00EE: the sys-call, a jump here (R101, C1). -/
  | sys (nnn : Addr12)
  /-- 1nnn, JP nnn (R102). -/
  | jp (nnn : Addr12)
  /-- 2nnn, CALL nnn (R103). -/
  | call (nnn : Addr12)
  /-- 3xkk, SE Vx, kk (R104). -/
  | seImm (x : Nibble) (kk : Byte)
  /-- 4xkk, SNE Vx, kk (R105). -/
  | sneImm (x : Nibble) (kk : Byte)
  /-- 5xy0, SE Vx, Vy (R106). -/
  | seReg (x y : Nibble)
  /-- 6xkk, LD Vx, kk (R122). -/
  | ldImm (x : Nibble) (kk : Byte)
  /-- 7xkk, ADD Vx, kk (R123). -/
  | addImm (x : Nibble) (kk : Byte)
  /-- 8xy0, LD Vx, Vy (R124). -/
  | ldReg (x y : Nibble)
  /-- 8xy1, OR Vx, Vy (R125). -/
  | orReg (x y : Nibble)
  /-- 8xy2, AND Vx, Vy (R126). -/
  | andReg (x y : Nibble)
  /-- 8xy3, XOR Vx, Vy (R127). -/
  | xorReg (x y : Nibble)
  /-- 8xy4, ADD Vx, Vy (R128). -/
  | addReg (x y : Nibble)
  /-- 8xy5, SUB Vx, Vy (R129). -/
  | subReg (x y : Nibble)
  /-- 8xy6, SHR Vx {, Vy}: `y` is part of the word and ignored by the instruction (R130, R76). -/
  | shr (x y : Nibble)
  /-- 8xy7, SUBN Vx, Vy (R131). -/
  | subn (x y : Nibble)
  /-- 8xyE, SHL Vx {, Vy}: `y` is part of the word and ignored by the instruction (R132, R76). -/
  | shl (x y : Nibble)
  /-- 9xy0, SNE Vx, Vy (R107). -/
  | sneReg (x y : Nibble)
  /-- Annn, LD I, nnn (R150). -/
  | ldI (nnn : Addr12)
  /-- Bnnn, JP V0, nnn (R108). -/
  | jpV0 (nnn : Addr12)
  /-- Cxkk, RND Vx, kk (R133). -/
  | rnd (x : Nibble) (kk : Byte)
  /-- Dxyn, DRW Vx, Vy, n (R171). -/
  | drw (x y n : Nibble)
  /-- Ex9E, SKP Vx (R190). -/
  | skp (x : Nibble)
  /-- ExA1, SKNP Vx (R191). -/
  | sknp (x : Nibble)
  /-- Fx07, LD Vx, DT (R194). -/
  | ldVxDt (x : Nibble)
  /-- Fx0A, LD Vx, K: wait for a key (R195). -/
  | ldVxK (x : Nibble)
  /-- Fx15, LD DT, Vx (R196). -/
  | ldDtVx (x : Nibble)
  /-- Fx18, LD ST, Vx (R197). -/
  | ldStVx (x : Nibble)
  /-- Fx1E, ADD I, Vx (R151). -/
  | addI (x : Nibble)
  /-- Fx29, LD F, Vx: the font glyph's address (R152). -/
  | ldF (x : Nibble)
  /-- Fx33, LD B, Vx: the BCD store (R153). -/
  | ldB (x : Nibble)
  /-- Fx55, LD [I], Vx: the block store (R154). -/
  | ldMemVx (x : Nibble)
  /-- Fx65, LD Vx, [I]: the block load (R155). -/
  | ldVxMem (x : Nibble)
deriving DecidableEq, Repr

end Sys2Proof
end

