-- ==== Sys2Proof/Decode.lean ====
section
/-! DEFINITION. From a 16-bit opcode to an instruction or a DecodeFailure, and back (spec rules R70 to R83). The decoder
follows R77 to R79 (dispatch on n1, then n4, kk or nnn); `opcodeMap` is the match/mask table of R80, kept beside it so
that the two readings can be proved to agree. -/

namespace Sys2Proof

/-- Why a word or a byte string is no instruction. -/
inductive DecodeError where
  /-- The word matches no row of the opcode map (R83). -/
  | decodeFailure (op : Word)
  /-- Fewer than the two bytes an instruction has (R70); a fetch never gives this. -/
  | truncated
deriving DecidableEq, Repr

/-- The four nibbles of an opcode, `n1` the most significant (R9). -/
def opN1 (op : Word) : Nibble := op.extractLsb' 12 4
/-- Bits 11:8: the register index `x` (R15, R75). -/
def opX (op : Word) : Nibble := op.extractLsb' 8 4
/-- Bits 7:4: the register index `y` (R15, R75). -/
def opY (op : Word) : Nibble := op.extractLsb' 4 4
/-- Bits 3:0: the row count `n`, and the function field `n4` (R15, R75). -/
def opN (op : Word) : Nibble := op.extractLsb' 0 4
/-- Bits 7:0: the immediate `kk` (R15, R75). -/
def opKk (op : Word) : Byte := op.extractLsb' 0 8
/-- Bits 11:0: the address `nnn` (R15, R75). -/
def opNnn (op : Word) : Addr12 := op.extractLsb' 0 12

/-- Family 0x0, by nnn: never a DecodeFailure (R78). -/
def decode0 (nnn : Addr12) : Instr :=
  if nnn = 0x0E0#12 then .cls else if nnn = 0x0EE#12 then .ret else .sys nnn

/-- Family 0x8, by n4 in 0..7 and E (R79). -/
def decode8 (x y n4 : Nibble) : Option Instr :=
  match n4.toNat with
  | 0x0 => some (.ldReg x y)
  | 0x1 => some (.orReg x y)
  | 0x2 => some (.andReg x y)
  | 0x3 => some (.xorReg x y)
  | 0x4 => some (.addReg x y)
  | 0x5 => some (.subReg x y)
  | 0x6 => some (.shr x y)
  | 0x7 => some (.subn x y)
  | 0xE => some (.shl x y)
  | _ => none

/-- Family 0xE, by kk (R79). -/
def decodeE (x : Nibble) (kk : Byte) : Option Instr :=
  if kk = 0x9E#8 then some (.skp x)
  else if kk = 0xA1#8 then some (.sknp x)
  else none

/-- Family 0xF, by kk (R79). -/
def decodeF (x : Nibble) (kk : Byte) : Option Instr :=
  if kk = 0x07#8 then some (.ldVxDt x)
  else if kk = 0x0A#8 then some (.ldVxK x)
  else if kk = 0x15#8 then some (.ldDtVx x)
  else if kk = 0x18#8 then some (.ldStVx x)
  else if kk = 0x1E#8 then some (.addI x)
  else if kk = 0x29#8 then some (.ldF x)
  else if kk = 0x33#8 then some (.ldB x)
  else if kk = 0x55#8 then some (.ldMemVx x)
  else if kk = 0x65#8 then some (.ldVxMem x)
  else none

/-- The instruction of a word, if it has one: dispatch on `n1`, then on `n4` or `kk` (R77 to R80). -/
def decodeOption (op : Word) : Option Instr :=
  match (opN1 op).toNat with
  | 0x0 => some (decode0 (opNnn op))
  | 0x1 => some (.jp (opNnn op))
  | 0x2 => some (.call (opNnn op))
  | 0x3 => some (.seImm (opX op) (opKk op))
  | 0x4 => some (.sneImm (opX op) (opKk op))
  | 0x5 => if opN op = 0x0#4 then some (.seReg (opX op) (opY op)) else none
  | 0x6 => some (.ldImm (opX op) (opKk op))
  | 0x7 => some (.addImm (opX op) (opKk op))
  | 0x8 => decode8 (opX op) (opY op) (opN op)
  | 0x9 => if opN op = 0x0#4 then some (.sneReg (opX op) (opY op)) else none
  | 0xA => some (.ldI (opNnn op))
  | 0xB => some (.jpV0 (opNnn op))
  | 0xC => some (.rnd (opX op) (opKk op))
  | 0xD => some (.drw (opX op) (opY op) (opN op))
  | 0xE => decodeE (opX op) (opKk op)
  | _ => decodeF (opX op) (opKk op)

/-- `Decode(op)`: exactly one instruction, or DecodeFailure(op) (R77, R81, R83). -/
def decode (op : Word) : Except DecodeError Instr :=
  match decodeOption op with
  | some i => .ok i
  | none => .error (.decodeFailure op)

/-- The opcode two fetched bytes make: big-endian, the byte at the lower address first (R52, R71). -/
def wordOfBytes (hi lo : Byte) : Word := hi ++ lo

/-- The bytes of an opcode as they lie in memory, the first at the lower address (R52). -/
def bytesOfWord (op : Word) : List Byte := [op.extractLsb' 8 8, op.extractLsb' 0 8]

/-- Decode the instruction at the head of a byte string; every instruction is two bytes (R70). -/
def decodeBytes : List Byte → Except DecodeError (Instr × List Byte)
  | hi :: lo :: rest => (decode (wordOfBytes hi lo)).map (fun i => (i, rest))
  | _ => .error .truncated

/-- The word of an instruction (R74, R80). -/
def encode : Instr → Word
  | .cls => 0x00E0#16
  | .ret => 0x00EE#16
  | .sys nnn => 0x0#4 ++ nnn
  | .jp nnn => 0x1#4 ++ nnn
  | .call nnn => 0x2#4 ++ nnn
  | .seImm x kk => 0x3#4 ++ x ++ kk
  | .sneImm x kk => 0x4#4 ++ x ++ kk
  | .seReg x y => 0x5#4 ++ x ++ y ++ 0x0#4
  | .ldImm x kk => 0x6#4 ++ x ++ kk
  | .addImm x kk => 0x7#4 ++ x ++ kk
  | .ldReg x y => 0x8#4 ++ x ++ y ++ 0x0#4
  | .orReg x y => 0x8#4 ++ x ++ y ++ 0x1#4
  | .andReg x y => 0x8#4 ++ x ++ y ++ 0x2#4
  | .xorReg x y => 0x8#4 ++ x ++ y ++ 0x3#4
  | .addReg x y => 0x8#4 ++ x ++ y ++ 0x4#4
  | .subReg x y => 0x8#4 ++ x ++ y ++ 0x5#4
  | .shr x y => 0x8#4 ++ x ++ y ++ 0x6#4
  | .subn x y => 0x8#4 ++ x ++ y ++ 0x7#4
  | .shl x y => 0x8#4 ++ x ++ y ++ 0xE#4
  | .sneReg x y => 0x9#4 ++ x ++ y ++ 0x0#4
  | .ldI nnn => 0xA#4 ++ nnn
  | .jpV0 nnn => 0xB#4 ++ nnn
  | .rnd x kk => 0xC#4 ++ x ++ kk
  | .drw x y n => 0xD#4 ++ x ++ y ++ n
  | .skp x => 0xE#4 ++ x ++ 0x9E#8
  | .sknp x => 0xE#4 ++ x ++ 0xA1#8
  | .ldVxDt x => 0xF#4 ++ x ++ 0x07#8
  | .ldVxK x => 0xF#4 ++ x ++ 0x0A#8
  | .ldDtVx x => 0xF#4 ++ x ++ 0x15#8
  | .ldStVx x => 0xF#4 ++ x ++ 0x18#8
  | .addI x => 0xF#4 ++ x ++ 0x1E#8
  | .ldF x => 0xF#4 ++ x ++ 0x29#8
  | .ldB x => 0xF#4 ++ x ++ 0x33#8
  | .ldMemVx x => 0xF#4 ++ x ++ 0x55#8
  | .ldVxMem x => 0xF#4 ++ x ++ 0x65#8

/-- The opcode map as match and mask, in the table's order, rows numbered from 1 (R80). -/
def opcodeMap : List (Nat × Word × Word) :=
  [(1, 0x00E0#16, 0xFFFF#16), (2, 0x00EE#16, 0xFFFF#16), (3, 0x0000#16, 0xF000#16), (4, 0x1000#16, 0xF000#16),
   (5, 0x2000#16, 0xF000#16), (6, 0x3000#16, 0xF000#16), (7, 0x4000#16, 0xF000#16), (8, 0x5000#16, 0xF00F#16),
   (9, 0x6000#16, 0xF000#16), (10, 0x7000#16, 0xF000#16), (11, 0x8000#16, 0xF00F#16), (12, 0x8001#16, 0xF00F#16)]
  ++
  [(13, 0x8002#16, 0xF00F#16), (14, 0x8003#16, 0xF00F#16), (15, 0x8004#16, 0xF00F#16), (16, 0x8005#16, 0xF00F#16),
   (17, 0x8006#16, 0xF00F#16), (18, 0x8007#16, 0xF00F#16), (19, 0x800E#16, 0xF00F#16), (20, 0x9000#16, 0xF00F#16),
   (21, 0xA000#16, 0xF000#16), (22, 0xB000#16, 0xF000#16), (23, 0xC000#16, 0xF000#16), (24, 0xD000#16, 0xF000#16)]
  ++
  [(25, 0xE09E#16, 0xF0FF#16), (26, 0xE0A1#16, 0xF0FF#16), (27, 0xF007#16, 0xF0FF#16), (28, 0xF00A#16, 0xF0FF#16),
   (29, 0xF015#16, 0xF0FF#16), (30, 0xF018#16, 0xF0FF#16), (31, 0xF01E#16, 0xF0FF#16), (32, 0xF029#16, 0xF0FF#16),
   (33, 0xF033#16, 0xF0FF#16), (34, 0xF055#16, 0xF0FF#16), (35, 0xF065#16, 0xF0FF#16)]

/-- The number of the first row a word matches: rows 1 and 2 take priority over row 3 (R80, R81). -/
def opcodeRow (op : Word) : Option Nat :=
  (opcodeMap.find? (fun r => op &&& r.2.2 == r.2.1)).map (·.1)

/-- The row of the opcode map an instruction belongs to (R80). -/
def Instr.row : Instr → Nat
  | .cls => 1
  | .ret => 2
  | .sys _ => 3
  | .jp _ => 4
  | .call _ => 5
  | .seImm _ _ => 6
  | .sneImm _ _ => 7
  | .seReg _ _ => 8
  | .ldImm _ _ => 9
  | .addImm _ _ => 10
  | .ldReg _ _ => 11
  | .orReg _ _ => 12
  | .andReg _ _ => 13
  | .xorReg _ _ => 14
  | .addReg _ _ => 15
  | .subReg _ _ => 16
  | .shr _ _ => 17
  | .subn _ _ => 18
  | .shl _ _ => 19
  | .sneReg _ _ => 20
  | .ldI _ => 21
  | .jpV0 _ => 22
  | .rnd _ _ => 23
  | .drw _ _ _ => 24
  | .skp _ => 25
  | .sknp _ => 26
  | .ldVxDt _ => 27
  | .ldVxK _ => 28
  | .ldDtVx _ => 29
  | .ldStVx _ => 30
  | .addI _ => 31
  | .ldF _ => 32
  | .ldB _ => 33
  | .ldMemVx _ => 34
  | .ldVxMem _ => 35

/-- The word whose bits, numbered as the opcode table numbers them, are the low `nbits` of `w`; bits above are 0. -/
def tableWord (nbits w : Nat) : Word := BitVec.ofNat 16 (w % 2 ^ nbits)

/-- What the decoder reads from the bytes that such a word lays in memory, high byte first (R52, R70). -/
def decodeTableWord (nbits w : Nat) : Option Instr :=
  match decodeBytes (bytesOfWord (tableWord nbits w)) with
  | .ok (i, _) => some i
  | .error _ => none

end Sys2Proof
end

