-- ==== Sys2Proof/Machine/State.lean ====
section
/-! DEFINITION. The machine's state as plain data (spec rules R20 to R38), the reasons of R210, and the state after
reset (R250). -/

namespace Sys2Proof.Machine

/-- The fault kinds of R210 with the value each records. A step that raises one TAKES it: it answers a next state that
holds the record (R213). No step of this model answers `Host.Outcome.fault`. All are the spec's own behaviour, so none
is a stop of the model's. -/
inductive Fault where
  /-- Code 1. Raised by decode, when the word matches no row of the opcode map (R83). Safe: the spec's own fault. -/
  | decodeFailure (op : Word)
  /-- Code 2. Raised by CALL with SP = 16 (R103). Safe: the spec's own fault. -/
  | stackOverflow
  /-- Code 3. Raised by RET with SP = 0 (R100). Safe: the spec's own fault. -/
  | stackUnderflow
  /-- Code 4. Raised by the fetch, DRW, LD B, LD [I] and LD Vx,[I] on an access at `a >= 0x1000` (R54, R55, D1).
  Safe: the spec's own fault, which errs toward unprovable. -/
  | addressOutOfRange (a : Nat)
  /-- Code 5. Raised by LD B and LD [I] on a store at `a < 0x200` under LOW_WRITE_POLICY = fault (R55, D2).
  Safe: the spec's own fault, which errs toward unprovable. -/
  | reservedWrite (a : Nat)
  /-- Code 6. Raised by SKP and SKNP when V[x] > 0xF (R192, D9). Safe: the spec's own fault, toward unprovable. -/
  | keyIndexOutOfRange (v : Byte)
  /-- Code 7. Raised by ADD I, Vx when I + V[x] > 0xFFFF (R151, D8). Safe: the spec's own fault, toward unprovable. -/
  | indexOverflow (sum : Nat)
deriving DecidableEq, Repr

/-- Why an instruction has no meaning in this model. -/
inductive Refusal where
  /-- Answered by `exec` for an instruction that has no meaning yet, by its name in the opcode table. Safe: nothing is
  claimed of it. No arm answers it now. -/
  | notModelled (mnemonic : String)
deriving DecidableEq, Repr

/-- What a fault records (R32): the kind, the address of the faulting instruction, and its opcode, or nothing when the
fetch itself faulted. -/
structure FaultRecord where
  kind : Fault
  pc0 : Word
  opcode : Option Word
deriving DecidableEq, Repr

/-- The 64 x 32 grid of pixels: 32 rows of 64 columns (R30). -/
abbrev Display := Vector (Vector Bool 64) 32

/-- Memory as its cells that differ from their reset contents, addresses strictly rising (R35, R50). -/
abbrev Memory := List Host.Cell

/-- The whole state of the machine (R38), and the model's own draw counter. -/
structure State where
  /-- V0 to VF; VF is `v[15]`, the flag register (R20, R21). -/
  v : Vector Byte 16
  /-- The index register, 16 bits, never masked (R26). -/
  i : Word
  /-- PC: between steps, the address of the next instruction to fetch (R22). -/
  pc : Word
  /-- The 16 return addresses, `stack[0]` the oldest; no part of memory (R27). -/
  stack : Vector Word 16
  /-- SP: the number of entries in use, 0 to 16 (R27, R36). -/
  sp : Fin 17
  /-- DT, the delay timer (R28). -/
  dt : Byte
  /-- ST, the sound timer (R29). -/
  st : Byte
  /-- The 4096 bytes of memory (R35). -/
  mem : Memory
  /-- The framebuffer (R30). -/
  disp : Display
  /-- The keypad image: `keys[k]` is true while key k is down (R34). -/
  keys : Vector Bool 16
  /-- The display's "needs redraw" flag (R31). -/
  needsRedraw : Bool
  /-- The "key-input-need state": the last completed step ran Fx0A and found no key down (R31). -/
  awaitingKey : Bool
  /-- Nothing, or the record of the fault that froze the machine (R32). -/
  fault : Option FaultRecord
  /-- THE MODEL'S OWN: how many random bytes have been drawn, so that each Cxkk draws a fresh free value (R8, D5). -/
  draws : Nat
deriving DecidableEq, Repr

/-- The machine right after `construct()` (R250): PC = 0x200, the font resident (memory lists nothing, and an unlisted
address reads as its reset contents), all else zero. DESIGN CHOICE (log entry 1): the draw counter starts at 0. -/
def State.reset : State where
  v := Vector.replicate 16 0#8
  i := 0#16
  pc := 0x200#16
  stack := Vector.replicate 16 0#16
  sp := 0
  dt := 0#8
  st := 0#8
  mem := []
  disp := Vector.replicate 32 (Vector.replicate 64 false)
  keys := Vector.replicate 16 false
  needsRedraw := false
  awaitingKey := false
  fault := none
  draws := 0

end Sys2Proof.Machine
end

