-- ==== Sys2Proof/Machine/Memory.lean ====
section
/-! DEFINITION. Memory as a canonical list of cells (spec rules R35, R50): how one cell is looked up and stored, before
any check of R54 or R55, and what an address reads as that nothing has changed since reset. -/

namespace Sys2Proof.Machine

/-- The size of memory: addresses 0x000 to 0xFFF (R7, R50). -/
def memSize : Nat := 0x1000

/-- Where the reserved region ends and programs load (R51). -/
def programBase : Nat := 0x200

/-- The reset contents of an address: the font at FONT_BASE, and 0 elsewhere (R35, R250). -/
def initialByte (p : Params) (a : Nat) : Byte :=
  if p.fontBase.toNat ≤ a then
    (p.fontData.toList[a - p.fontBase.toNat]?).getD 0#8
  else 0#8

/-- The byte a memory holds at an address; one that is not listed holds its reset contents. -/
def memLookup (p : Params) : Memory → Nat → Byte
  | [], a => initialByte p a
  | (k, b) :: m, a => if k = a then b else memLookup p m a

/-- The memory without any cell at an address. -/
def memErase : Memory → Nat → Memory
  | [], _ => []
  | (k, b) :: m, a => if k = a then memErase m a else (k, b) :: memErase m a

/-- The memory with one more cell, put before the first cell of a higher address. -/
def memInsert : Memory → Nat → Byte → Memory
  | [], a, v => [(a, v)]
  | (k, b) :: m, a, v => if a < k then (a, v) :: (k, b) :: m else (k, b) :: memInsert m a v

/-- The memory after the byte `v` is stored at `a`: a cell equal to its reset contents is not listed. -/
def memStore (p : Params) (m : Memory) (a : Nat) (v : Byte) : Memory :=
  if v = initialByte p a then memErase m a else memInsert (memErase m a) a v

/-- The memory after bytes are stored at ascending addresses from `a` on. -/
def memStoreAll (p : Params) : Memory → Nat → List Byte → Memory
  | m, _, [] => m
  | m, a, b :: bs => memStoreAll p (memStore p m a b) (a + 1) bs

/-- The canonical form from an address on: addresses strictly rising, inside memory, no cell at its reset contents. -/
def memWfFrom (p : Params) : Nat → Memory → Bool
  | _, [] => true
  | lo, (k, b) :: m => decide (lo ≤ k) && decide (k < memSize) && (b != initialByte p k) && memWfFrom p (k + 1) m

/-- The canonical form of memory, so that equal memories are equal data. -/
def Memory.wf (p : Params) (m : Memory) : Bool := memWfFrom p 0 m

end Sys2Proof.Machine
end

