-- ==== Sys2Proof/Machine/Ops.lean ====
section
/-! DEFINITION. The named operations every instruction is made of: registers, PC, the stack, the memory primitives with
their checks, taking a fault, and fetching and decoding (spec rules R11 to R14, R22 to R27, R52 to R56, R71, R72, R210 to
R214). No instruction returns from a fault (R215), so no such operation exists. -/

namespace Sys2Proof.Machine

/-- `V[x]` (R11, R20). -/
def State.getV (s : State) (x : Nibble) : Byte := s.v[x.toNat]'x.isLt

/-- `V[x] <- b` (R11, R20). -/
def State.setV (s : State) (x : Nibble) (b : Byte) : State := { s with v := s.v.set x.toNat b x.isLt }

/-- `V[0], V[1], ... <- bytes`; a register past the end of the bytes keeps its value (R155). -/
def State.setVs (s : State) (bytes : List Byte) : State :=
  { s with v := Vector.ofFn (fun k => (bytes[k.val]?).getD s.v[k]) }

/-- `PC <- target` (R11). -/
def State.setPc (s : State) (target : Word) : State := { s with pc := target }

/-- The snapshot an instruction's pseudocode runs on: `PC <- pc0 + 2` (R14, R23, R72), and `awaiting_key` false, which
only an Fx0A that finds no key sets again (R31, R72). DESIGN CHOICE (log entry 6), safe: the sum is taken modulo 2^16,
which only a PC that no fetch accepts can show (R25). -/
def State.advance (s : State) : State := { s with pc := s.pc + 2#16, awaitingKey := false }

/-- A skip: `PC <- PC + 2` when the condition holds (R109). -/
def State.skipIf (s : State) (c : Bool) : State := if c then s.setPc (s.pc + 2#16) else s

/-- Push a return address: StackOverflow when SP = 16 (R27, R103). -/
def State.push (s : State) (w : Word) : Except Fault State :=
  if h : s.sp.val < 16 then
    .ok { s with stack := s.stack.set s.sp.val w h, sp := ⟨s.sp.val + 1, Nat.succ_lt_succ h⟩ }
  else .error .stackOverflow

/-- Pop a return address into PC: StackUnderflow when SP = 0; the entry is not cleared (R27, R100). -/
def State.popPc (s : State) : Except Fault State :=
  if h : s.sp.val = 0 then .error .stackUnderflow
  else
    have hlt := s.sp.isLt
    .ok { s with sp := ⟨s.sp.val - 1, by omega⟩, pc := s.stack[s.sp.val - 1]'(by omega) }

/-- The byte memory holds at an address, as the host would see it: no check, no fault. -/
def State.byteAt (p : Params) (s : State) (a : Nat) : Byte := memLookup p s.mem a

/-- `MemRead(a, 1)` for an unbounded natural `a` (R54, D1). -/
def State.memRead (p : Params) (s : State) (a : Nat) : Except Fault Byte :=
  if memSize ≤ a then .error (.addressOutOfRange a) else .ok (s.byteAt p a)

/-- `MemWrite(a, 1, v)` for an unbounded natural `a` (R55, D1, D2). -/
def State.memWrite (p : Params) (s : State) (a : Nat) (v : Byte) : Except Fault State :=
  if memSize ≤ a then .error (.addressOutOfRange a)
  else if a < programBase ∧ p.lowWritePolicy = .fault then .error (.reservedWrite a)
  else .ok { s with mem := memStore p s.mem a v }

/-- Read `n` bytes at ascending addresses; the first that faults is the one reported (R53, R156). -/
def State.memReads (p : Params) (s : State) (a : Nat) : Nat → Except Fault (List Byte)
  | 0 => .ok []
  | n + 1 =>
    match s.memRead p a with
    | .error k => .error k
    | .ok b =>
      match s.memReads p (a + 1) n with
      | .error k => .error k
      | .ok bs => .ok (b :: bs)

/-- Write bytes at ascending addresses; the first that faults is the one reported (R53, R156). -/
def State.memWrites (p : Params) (s : State) (a : Nat) : List Byte → Except Fault State
  | [] => .ok s
  | b :: bs =>
    match s.memWrite p a b with
    | .error k => .error k
    | .ok t => t.memWrites p (a + 1) bs

/-- The code of a fault kind (R210). -/
def Fault.code : Fault → Nat
  | .decodeFailure _ => 1
  | .stackOverflow => 2
  | .stackUnderflow => 3
  | .addressOutOfRange _ => 4
  | .reservedWrite _ => 5
  | .keyIndexOutOfRange _ => 6
  | .indexOverflow _ => 7

/-- Fault entry, the ONE way a fault is taken: `s` is the state before the step, so every write of the step is
discarded, and only the record is new (R213). -/
def State.takeFault (s : State) (kind : Fault) (opcode : Option Word) : State :=
  { s with fault := some { kind := kind, pc0 := s.pc, opcode := opcode } }

/-- The end of an instruction that may raise: its writes become visible together, or the fault is taken on the state
before the step (R13, R14, R213). The recorded opcode is the instruction's word (R32). -/
def commit (i : Instr) (s : State) (r : Except Fault State) : Host.Outcome State Fault Refusal :=
  match r with
  | .ok t => .next t
  | .error k => .next (s.takeFault k (some (encode i)))

/-- `Fetch16(PC)`: two byte reads, big-endian (R52, R56, R71). -/
def State.fetch16 (p : Params) (s : State) : Except Fault Word :=
  match s.memRead p s.pc.toNat with
  | .error k => .error k
  | .ok hi =>
    match s.memRead p (s.pc.toNat + 1) with
    | .error k => .error k
    | .ok lo => .ok (wordOfBytes hi lo)

/-- The step up to execution: `.ok` the instruction to execute, or `.error` the state the step ends in. A faulted
machine is frozen (R72, R214); a fetch fault is recorded with no opcode; a DecodeFailure is recorded with it (R72, R83,
R212). -/
def State.issue (p : Params) (s : State) : Except State Instr :=
  match s.fault with
  | some _ => .error s
  | none =>
    match s.fetch16 p with
    | .error k => .error (s.takeFault k none)
    | .ok op =>
      match decode op with
      | .error _ => .error (s.takeFault (.decodeFailure op) (some op))
      | .ok i => .ok i

/-- The address a word is placed at so that the next step fetches it: PC, or 0x200 when no fetch is possible at PC. -/
def State.placePc (s : State) : Word := if s.pc.toNat + 1 < memSize then s.pc else 0x200#16

/-- The state with a word laid where the next step fetches, and no fault recorded, so that the next step runs it. -/
def State.placeWord (p : Params) (s : State) (op : Word) : State :=
  { s with fault := none, pc := s.placePc, mem := memStoreAll p s.mem s.placePc.toNat (bytesOfWord op) }

end Sys2Proof.Machine
end

