-- ==== Sys2Proof/Machine/Flags.lean ====
section
/-! DEFINITION. The 8-bit results and the VF flag computations (spec rules R10, R120, R121, R128 to R134). Each is taken
on exact naturals and narrowed at the end. -/

namespace Sys2Proof.Machine

/-- VF, the register V[15] (R11, R21). -/
def vf : Nibble := 0xF#4

/-- A flag as the value VF takes. -/
def flagByte (c : Bool) : Byte := if c then 1#8 else 0#8

/-- `trunc8(a + b)` (R123, R128). -/
def addResult (a b : Byte) : Byte := BitVec.ofNat 8 (a.toNat + b.toNat)

/-- The carry: the unsigned sum exceeds 255 (R128). -/
def addCarry (a b : Byte) : Bool := decide (255 < a.toNat + b.toNat)

/-- `trunc8(a - b + 256)` (R129, R131). -/
def subResult (a b : Byte) : Byte := BitVec.ofNat 8 (a.toNat + 256 - b.toNat)

/-- The not-borrow flag, strict: `a > b` (R129, R131). -/
def subFlag (a b : Byte) : Bool := decide (b.toNat < a.toNat)

/-- `a >> 1`, logical (R130, R134). -/
def shrResult (a : Byte) : Byte := BitVec.ofNat 8 (a.toNat / 2)

/-- Bit 0, the bit shifted out to the right (R130). -/
def shrFlag (a : Byte) : Bool := decide (a.toNat % 2 = 1)

/-- `trunc8(a << 1)` (R132, R134). -/
def shlResult (a : Byte) : Byte := BitVec.ofNat 8 (a.toNat * 2)

/-- Bit 7, the bit shifted out to the left (R132). -/
def shlFlag (a : Byte) : Bool := decide (128 ≤ a.toNat)

/-- The result into V[x] first and the flag into VF second, so that VF ends holding the flag even when x = 0xF (R121).
UNVERIFIED (log entry 9), unsafe: the order is the spec's own decision D6. -/
def State.setVFlag (s : State) (x : Nibble) (result : Byte) (flag : Bool) : State :=
  (s.setV x result).setV vf (flagByte flag)

end Sys2Proof.Machine
end

