-- ==== Sys2Proof/Machine/Alu.lean ====
section
/-! DEFINITION. Register arithmetic and logic, and the random byte (spec file 42_alu.md). Every operand is read from the
state before any register is written (R120); none of these instructions can raise a fault. -/

namespace Sys2Proof.Machine

/-- LD Vx, kk (R122). -/
def execLdImm (x : Nibble) (kk : Byte) (s : State) : Host.Outcome State Fault Refusal := .next (s.advance.setV x kk)

/-- ADD Vx, kk: wraps, writes no flag (R123). -/
def execAddImm (x : Nibble) (kk : Byte) (s : State) : Host.Outcome State Fault Refusal :=
  .next (s.advance.setV x (addResult (s.getV x) kk))

/-- LD Vx, Vy (R124). -/
def execLdReg (x y : Nibble) (s : State) : Host.Outcome State Fault Refusal := .next (s.advance.setV x (s.getV y))

/-- OR Vx, Vy: VF keeps its value (R125). -/
def execOrReg (x y : Nibble) (s : State) : Host.Outcome State Fault Refusal :=
  .next (s.advance.setV x (s.getV x ||| s.getV y))

/-- AND Vx, Vy: VF keeps its value (R126). -/
def execAndReg (x y : Nibble) (s : State) : Host.Outcome State Fault Refusal :=
  .next (s.advance.setV x (s.getV x &&& s.getV y))

/-- XOR Vx, Vy: VF keeps its value (R127). -/
def execXorReg (x y : Nibble) (s : State) : Host.Outcome State Fault Refusal :=
  .next (s.advance.setV x (s.getV x ^^^ s.getV y))

/-- ADD Vx, Vy: VF = carry (R128). -/
def execAddReg (x y : Nibble) (s : State) : Host.Outcome State Fault Refusal :=
  .next (s.advance.setVFlag x (addResult (s.getV x) (s.getV y)) (addCarry (s.getV x) (s.getV y)))

/-- SUB Vx, Vy: VF = (Vx > Vy) (R129). -/
def execSubReg (x y : Nibble) (s : State) : Host.Outcome State Fault Refusal :=
  .next (s.advance.setVFlag x (subResult (s.getV x) (s.getV y)) (subFlag (s.getV x) (s.getV y)))

/-- SHR Vx: VF = bit 0 before the shift; the y field is ignored (R130, R76). -/
def execShr (x : Nibble) (s : State) : Host.Outcome State Fault Refusal :=
  .next (s.advance.setVFlag x (shrResult (s.getV x)) (shrFlag (s.getV x)))

/-- SUBN Vx, Vy: VF = (Vy > Vx) (R131). -/
def execSubn (x y : Nibble) (s : State) : Host.Outcome State Fault Refusal :=
  .next (s.advance.setVFlag x (subResult (s.getV y) (s.getV x)) (subFlag (s.getV y) (s.getV x)))

/-- SHL Vx: VF = bit 7 before the shift; the y field is ignored (R132, R76). -/
def execShl (x : Nibble) (s : State) : Host.Outcome State Fault Refusal :=
  .next (s.advance.setVFlag x (shlResult (s.getV x)) (shlFlag (s.getV x)))

/-- RND Vx, kk: `rnd & kk`, where rnd is the free value of this execution's draw (R133, D5; log entry 1). -/
def execRnd (x : Nibble) (kk : Byte) (s : State) : Host.Outcome State Fault Refusal :=
  .next { s.advance.setV x (Config.rnd s.draws &&& kk) with draws := s.draws + 1 }

end Sys2Proof.Machine
end

