-- ==== Sys2Proof/Machine/Operands.lean ====
section
/-! DEFINITION. The operand forms: zero-extended addresses, the one addressing mode, glyph addresses, decimal digits,
register ranges and key indices (spec rules R75, R152 to R156, R192, R195). -/

namespace Sys2Proof.Machine

/-- `zext16(nnn)` (R10, R75). -/
def zext16 (nnn : Addr12) : Word := nnn.setWidth 16

/-- The jump target `nnn + V0`, at most 0x10FE (R108). -/
def jumpV0Target (nnn : Addr12) (v0 : Byte) : Word := BitVec.ofNat 16 (nnn.toNat + v0.toNat)

/-- The address of the glyph of the low nibble of a byte: `FONT_BASE + (V[x] & 0xF) * 5` (R152). -/
def glyphAddress (p : Params) (b : Byte) : Word :=
  BitVec.ofNat 16 (p.fontBase.toNat + (b &&& 0x0F#8).toNat * 5)

/-- The hundreds, tens and ones of a byte (R153). -/
def bcdDigits (b : Byte) : List Byte :=
  [BitVec.ofNat 8 (b.toNat / 100), BitVec.ofNat 8 ((b.toNat / 10) % 10), BitVec.ofNat 8 (b.toNat % 10)]

/-- The values of V0 to Vx, x included (R154). -/
def State.regRange (s : State) (x : Nibble) : List Byte := s.v.toList.take (x.toNat + 1)

/-- How many registers V0 to Vx are: x + 1 (R154, R155). -/
def rangeSize (x : Nibble) : Nat := x.toNat + 1

/-- The address formed from I, an unbounded natural that no instruction wraps to 12 bits (R26, R156). -/
def State.indexAddr (s : State) : Nat := s.i.toNat

/-- `key(k)` (R11, R34). -/
def State.key (s : State) (k : Nibble) : Bool := s.keys[k.toNat]'k.isLt

/-- The state of the key a register value names, or KeyIndexOutOfRange for a value above 0xF (R192, D9). -/
def State.keyOf (s : State) (b : Byte) : Except Fault Bool :=
  if 0x0F#8 < b then .error (.keyIndexOutOfRange b) else .ok (s.key (b.setWidth 4))

/-- The least key that is down, if one is (R195, D10). -/
def State.leastKeyDown (s : State) : Option Nat := s.keys.toList.findIdx? id

end Sys2Proof.Machine
end

