-- ==== Sys2Proof/Machine/ControlFlow.lean ====
section
/-! DEFINITION. Control transfer and skips (spec file 41_control_flow.md). Each meaning starts from the state before the
step, PC = pc0, and runs on `s.advance`, where PC = pc0 + 2 (R72). -/

namespace Sys2Proof.Machine

/-- RET: pop the return address into PC, or StackUnderflow (R100). -/
def execRet (s : State) : Host.Outcome State Fault Refusal := commit .ret s s.advance.popPc

/-- SYS nnn: a jump to nnn (R101, conflict C1). UNVERIFIED (log entry 17), unsafe. -/
def execSys (nnn : Addr12) (s : State) : Host.Outcome State Fault Refusal := .next (s.advance.setPc (zext16 nnn))

/-- JP nnn (R102). -/
def execJp (nnn : Addr12) (s : State) : Host.Outcome State Fault Refusal := .next (s.advance.setPc (zext16 nnn))

/-- CALL nnn: push pc0 + 2, then jump; StackOverflow when SP = 16 (R103). -/
def execCall (nnn : Addr12) (s : State) : Host.Outcome State Fault Refusal :=
  commit (.call nnn) s ((s.advance.push s.advance.pc).map (fun t => t.setPc (zext16 nnn)))

/-- SE Vx, kk: skip when V[x] = kk (R104, R109). -/
def execSeImm (x : Nibble) (kk : Byte) (s : State) : Host.Outcome State Fault Refusal :=
  .next (s.advance.skipIf (s.getV x == kk))

/-- SNE Vx, kk: skip when V[x] != kk (R105, R109). -/
def execSneImm (x : Nibble) (kk : Byte) (s : State) : Host.Outcome State Fault Refusal :=
  .next (s.advance.skipIf (s.getV x != kk))

/-- SE Vx, Vy: skip when V[x] = V[y] (R106, R109). -/
def execSeReg (x y : Nibble) (s : State) : Host.Outcome State Fault Refusal :=
  .next (s.advance.skipIf (s.getV x == s.getV y))

/-- SNE Vx, Vy: skip when V[x] != V[y] (R107, R109). -/
def execSneReg (x y : Nibble) (s : State) : Host.Outcome State Fault Refusal :=
  .next (s.advance.skipIf (s.getV x != s.getV y))

/-- JP V0, nnn: the register added is always V0 (R108). -/
def execJpV0 (nnn : Addr12) (s : State) : Host.Outcome State Fault Refusal :=
  .next (s.advance.setPc (jumpV0Target nnn (s.getV 0x0#4)))

end Sys2Proof.Machine
end

