-- ==== Sys2Proof/Machine/Display.lean ====
section
/-! DEFINITION. The framebuffer and the two instructions that change it (spec file 44_display.md; R30). -/

namespace Sys2Proof.Machine

/-- `disp(c, r)` (R11, R30). -/
def getPixel (d : Display) (c : Fin 64) (r : Fin 32) : Bool := d[r][c]

/-- The framebuffer with one pixel toggled. -/
def togglePixel (d : Display) (c : Fin 64) (r : Fin 32) : Display :=
  d.set r (d[r].set c (!d[r][c]))

/-- The framebuffer with every pixel false (R170). -/
def clearDisplay : Display := Vector.replicate 32 (Vector.replicate 64 false)

/-- What a draw carries along: the framebuffer and the sticky collision flag (R171). -/
abbrev Canvas := Display × Bool

/-- Bit `c` of a sprite byte, bit 7 the leftmost: `(b >> (7 - c)) & 1` (R171). -/
def spriteBit (b : Byte) (c : Nat) : Bool := b.getLsbD (7 - c)

/-- One sprite bit at column `xs + c` mod 64 and row `yr` mod 32: a 1 collides with a set pixel and toggles it, a 0
does nothing (R171). -/
def drawBit (xs yr : Nat) (b : Byte) (cv : Canvas) (c : Nat) : Canvas :=
  if spriteBit b c then
    (togglePixel cv.1 (Fin.ofNat 64 (xs + c)) (Fin.ofNat 32 yr),
      cv.2 || getPixel cv.1 (Fin.ofNat 64 (xs + c)) (Fin.ofNat 32 yr))
  else cv

/-- One sprite row: its eight bits, most significant first (R171). -/
def drawRow (xs yr : Nat) (b : Byte) (cv : Canvas) : Canvas := (List.range 8).foldl (drawBit xs yr b) cv

/-- The sprite's rows from `yr` on, downwards (R171). -/
def drawRows (xs : Nat) : Nat → List Byte → Canvas → Canvas
  | _, [], cv => cv
  | yr, b :: rows, cv => drawRows xs (yr + 1) rows (drawRow xs yr b cv)

/-- CLS: every pixel false, and a redraw is needed even if the screen was clear (R170, R173). -/
def execCls (s : State) : Host.Outcome State Fault Refusal :=
  .next { s.advance with disp := clearDisplay, needsRedraw := true }

/-- The draw of R171 in its order: `VF <- 0`, then the start coordinates (so x = 0xF or y = 0xF gives 0, D23), then the
`n` rows read from I, the toggles with the collision into VF, and `needs_redraw`. UNVERIFIED (log entry 10), unsafe: the
order of the VF reset. The rows are read before the first toggle; no read depends on one. DEDUCED (log entry 24), unsafe:
on a second draw VF is the pseudocode's, not the second sentence of R171 (g). -/
def drawSprite (p : Params) (x y n : Nibble) (s : State) : Except Fault State :=
  let t := s.setV vf 0#8
  let xs := (t.getV x).toNat % 64
  let ys := (t.getV y).toNat % 32
  (t.memReads p t.indexAddr n.toNat).map (fun rows =>
    let cv := drawRows xs ys rows (t.disp, false)
    { t.setV vf (flagByte cv.2) with disp := cv.1, needsRedraw := true })

/-- DRW Vx, Vy, n (R171). -/
def execDrw (x y n : Nibble) (s : State) : Host.Outcome State Fault Refusal :=
  commit (.drw x y n) s (drawSprite specParams x y n s.advance)

end Sys2Proof.Machine
end

