-- ==== Sys2Proof/Machine/IndexMemory.lean ====
section
/-! DEFINITION. The index register and memory transfer (spec file 43_index_memory.md). The bodies that depend on a
parameter of R8 take the parameters as an argument; the meanings run them with this spec's values. -/

namespace Sys2Proof.Machine

/-- LD I, nnn (R150). -/
def execLdI (nnn : Addr12) (s : State) : Host.Outcome State Fault Refusal :=
  .next { s.advance with i := zext16 nnn }

/-- `I <- I + V[x]`, or IndexOverflow when the sum exceeds 0xFFFF (R151, D8). -/
def State.addIndex (s : State) (b : Byte) : Except Fault State :=
  if 0xFFFF < s.i.toNat + b.toNat then .error (.indexOverflow (s.i.toNat + b.toNat))
  else .ok { s with i := BitVec.ofNat 16 (s.i.toNat + b.toNat) }

/-- ADD I, Vx: VF is unchanged (R151). -/
def execAddI (x : Nibble) (s : State) : Host.Outcome State Fault Refusal :=
  commit (.addI x) s (s.advance.addIndex (s.getV x))

/-- LD F, Vx: `I <- FONT_BASE + (V[x] & 0xF) * 5` (R152). -/
def execLdF (x : Nibble) (s : State) : Host.Outcome State Fault Refusal :=
  .next { s.advance with i := glyphAddress specParams (s.getV x) }

/-- The BCD store: hundreds, tens and ones at I, I+1, I+2 (R153). -/
def bcdStore (p : Params) (x : Nibble) (s : State) : Except Fault State :=
  s.memWrites p s.indexAddr (bcdDigits (s.getV x))

/-- LD B, Vx (R153). -/
def execLdB (x : Nibble) (s : State) : Host.Outcome State Fault Refusal :=
  commit (.ldB x) s (bcdStore specParams x s.advance)

/-- The block store: V0 to Vx at I and on; I is not changed (R154, D7). -/
def blockStore (p : Params) (x : Nibble) (s : State) : Except Fault State :=
  s.memWrites p s.indexAddr (s.regRange x)

/-- LD [I], Vx (R154). -/
def execLdMemVx (x : Nibble) (s : State) : Host.Outcome State Fault Refusal :=
  commit (.ldMemVx x) s (blockStore specParams x s.advance)

/-- The block load: the bytes at I and on into V0 to Vx; I is not changed (R155, D7). -/
def blockLoad (p : Params) (x : Nibble) (s : State) : Except Fault State :=
  (s.memReads p s.indexAddr (rangeSize x)).map (fun bytes => s.setVs bytes)

/-- LD Vx, [I] (R155). -/
def execLdVxMem (x : Nibble) (s : State) : Host.Outcome State Fault Refusal :=
  commit (.ldVxMem x) s (blockLoad specParams x s.advance)

end Sys2Proof.Machine
end

