-- ==== Sys2Proof/Machine/KeysTimers.lean ====
section
/-! DEFINITION. Keypad and timer instructions (spec file 45_keys_timers.md). -/

namespace Sys2Proof.Machine

/-- SKP Vx: skip when key V[x] is down; KeyIndexOutOfRange above 0xF (R190, R192). -/
def execSkp (x : Nibble) (s : State) : Host.Outcome State Fault Refusal :=
  commit (.skp x) s ((s.keyOf (s.getV x)).map (fun down => s.advance.skipIf down))

/-- SKNP Vx: skip when key V[x] is up; KeyIndexOutOfRange above 0xF (R191, R192). -/
def execSknp (x : Nibble) (s : State) : Host.Outcome State Fault Refusal :=
  commit (.sknp x) s ((s.keyOf (s.getV x)).map (fun down => s.advance.skipIf (!down)))

/-- LD Vx, DT (R194). -/
def execLdVxDt (x : Nibble) (s : State) : Host.Outcome State Fault Refusal := .next (s.advance.setV x s.dt)

/-- LD Vx, K: the least key down into V[x]; with no key down, PC is rewound to pc0 and awaiting_key set (R195). -/
def execLdVxK (x : Nibble) (s : State) : Host.Outcome State Fault Refusal :=
  match s.leastKeyDown with
  | some k => .next (s.advance.setV x (BitVec.ofNat 8 k))
  | none => .next { s.advance.setPc (s.advance.pc - 2#16) with awaitingKey := true }

/-- LD DT, Vx (R196). -/
def execLdDtVx (x : Nibble) (s : State) : Host.Outcome State Fault Refusal := .next { s.advance with dt := s.getV x }

/-- LD ST, Vx (R197). -/
def execLdStVx (x : Nibble) (s : State) : Host.Outcome State Fault Refusal := .next { s.advance with st := s.getV x }

end Sys2Proof.Machine
end

