-- ==== Sys2Proof/Machine/Step.lean ====
section
/-! DEFINITION. One step of the machine (spec rule R72), and how the host places an instruction for it. -/

namespace Sys2Proof.Machine

/-- `step()`: a frozen machine stays as it is; a fetch or decode fault is taken; else exactly one instruction is executed
(R72, R73, R212, R214). What `step()` returns to the driver is the `fault` field of the state it answers. DESIGN CHOICE
(log entry 5), safe. -/
def step (s : State) : Host.Outcome State Fault Refusal :=
  match s.issue specParams with
  | .error t => .next t
  | .ok i => exec i s

/-- The state with the instruction whose bits are `w` laid where the next step fetches (log entry 7). -/
def State.withFetchWord (s : State) (nbits w : Nat) : State := s.placeWord specParams (tableWord nbits w)

end Sys2Proof.Machine
end

