-- ==== Sys2Proof/Machine/HostOps.lean ====
section
/-! DEFINITION. The operations the host drives the core through, each atomic and each between two others (spec rules R230
to R236, R221, R250, R252). The host chooses their order; none of them runs inside a step. -/

namespace Sys2Proof.Machine

/-- Why `load` refuses a ROM (R231). -/
inductive LoadError where
  /-- The ROM has more than 3584 bytes; its length. -/
  | romTooLarge (length : Nat)
  /-- A fault is recorded (R214). -/
  | machineFaulted
deriving DecidableEq, Repr

/-- The longest ROM `load` takes: 4096 - 0x200 (R231). -/
def maxRom : Nat := memSize - programBase

/-- `load(rom)`: the ROM's bytes from 0x200 on, nothing else changed, or the load error (R231). -/
def State.load (p : Params) (s : State) (rom : List Byte) : Except LoadError State :=
  if s.fault ≠ none then .error .machineFaulted
  else if maxRom < rom.length then .error (.romTooLarge rom.length)
  else .ok { s with mem := memStoreAll p s.mem programBase rom }

/-- A timer after one tick: one less, never below 0 (R221). -/
def tickByte (b : Byte) : Byte := if b = 0#8 then 0#8 else b - 1#8

/-- `tick_timers()`: both timers fall, independently; a faulted machine does not tick (R221, R214). -/
def State.tickTimers (s : State) : State :=
  if s.fault ≠ none then s else { s with dt := tickByte s.dt, st := tickByte s.st }

/-- `set_key(k, down)`, in a faulted machine too (R233, R214). -/
def State.setKey (s : State) (k : Nibble) (down : Bool) : State := { s with keys := s.keys.set k.toNat down k.isLt }

/-- `ack_redraw()`, in a faulted machine too (R235, R214). -/
def State.ackRedraw (s : State) : State := { s with needsRedraw := false }

/-- `construct()`, the only reset (R250, R252). The model's draw counter goes on, so that a second run draws fresh free
values. DESIGN CHOICE (log entry 1), safe. -/
def State.construct (s : State) : State := { State.reset with draws := s.draws }

/-- `display()` (R234). -/
def State.readDisplay (s : State) : Display := s.disp

/-- `sound_timer()` (R234). -/
def State.readSoundTimer (s : State) : Byte := s.st

/-- "ST>0" means "emit tone" (R29, R234). -/
def State.emitTone (s : State) : Bool := decide (0 < s.readSoundTimer.toNat)

/-- `awaiting_key()` (R234). -/
def State.readAwaitingKey (s : State) : Bool := s.awaitingKey

/-- `needs_redraw()` (R234). -/
def State.readNeedsRedraw (s : State) : Bool := s.needsRedraw

/-- `fault()`: how errors are surfaced to the driver (R32, R234). -/
def State.readFault (s : State) : Option FaultRecord := s.fault

/-- The host operations that can change the machine (R230, R236); the accessors above change nothing. -/
inductive HostOp where
  | construct
  | load (rom : List Byte)
  | step
  | tickTimers
  | setKey (k : Nibble) (down : Bool)
  | ackRedraw
deriving DecidableEq, Repr

/-- What a host operation gives back (R236). -/
inductive Reply where
  /-- It was carried out. -/
  | ok
  /-- The step returned this fault, new or recorded before (R213, R214). -/
  | stepFault (record : FaultRecord)
  /-- The load was refused, and nothing changed (R231). -/
  | loadRefused (reason : LoadError)
deriving DecidableEq, Repr

/-- What `step()` returns to the driver, read from the state it leaves (R213, R214). -/
def stepReply (s : State) : Reply :=
  match s.fault with
  | none => .ok
  | some r => .stepFault r

/-- One host operation: the state after it and what it gives back (R230, R236). -/
def State.perform (s : State) (o : HostOp) : Host.Outcome (State × Reply) Fault Refusal :=
  match o with
  | .construct => .next (s.construct, .ok)
  | .load rom =>
    match s.load specParams rom with
    | .ok t => .next (t, .ok)
    | .error e => .next (s, .loadRefused e)
  | .step =>
    match step s with
    | .next t => .next (t, stepReply t)
    | .fault k => .fault k
    | .refused k => .refused k
  | .tickTimers => .next (s.tickTimers, .ok)
  | .setKey k down => .next (s.setKey k down, .ok)
  | .ackRedraw => .next (s.ackRedraw, .ok)

/-- A sequence of host operations, in the order the host chose (R230, R253). -/
def State.performAll (s : State) : List HostOp → Host.Outcome State Fault Refusal
  | [] => .next s
  | o :: os =>
    match s.perform o with
    | .next (t, _) => t.performAll os
    | .fault k => .fault k
    | .refused k => .refused k

end Sys2Proof.Machine
end

