-- ==== Sys2Proof/Safety.lean ====
section
/-! DEFINITION. The terms claims are stated in: what a run's end is (spec rule R262), what an instruction leaves alone,
which pixels a sprite covers, and the invariants of the machine. -/

namespace Sys2Proof

open Sys2Proof.Machine

/-- A safe machine has no fault recorded (R32, R214). -/
def Machine.State.Safe (s : State) : Prop := s.fault = none

/-- The word a fetch at PC reads, high byte first (R52). -/
def Machine.State.wordAtPc (s : State) : Word :=
  wordOfBytes (s.byteAt specParams s.pc.toNat) (s.byteAt specParams (s.pc.toNat + 1))

/-- A run is stopped at a self-jump: the word at PC is `1nnn` with nnn = PC (R262). -/
def Machine.State.StoppedAtSelfJump (s : State) : Prop :=
  s.fault = none ∧ s.pc.toNat < 0xFFF ∧ ∃ nnn : Addr12, s.wordAtPc = encode (.jp nnn) ∧ nnn.toNat = s.pc.toNat

/-- Every register but the listed ones holds what it held. -/
def KeepsV (xs : List Nibble) (s t : State) : Prop := ∀ r : Nibble, r ∉ xs → t.getV r = s.getV r

/-- Every stack entry and SP are as before. -/
def KeepsStack (s t : State) : Prop := t.stack = s.stack ∧ t.sp = s.sp

/-- Both timers are as before. -/
def KeepsTimers (s t : State) : Prop := t.dt = s.dt ∧ t.st = s.st

/-- Every byte of memory reads as before. -/
def KeepsMemory (s t : State) : Prop := ∀ a : Nat, t.byteAt specParams a = s.byteAt specParams a

/-- Every byte of memory outside the `n` bytes from `a0` on reads as before. -/
def KeepsMemoryBut (a0 n : Nat) (s t : State) : Prop :=
  ∀ a : Nat, (a < a0 ∨ a0 + n ≤ a) → t.byteAt specParams a = s.byteAt specParams a

/-- The framebuffer and `needs_redraw` are as before. -/
def KeepsScreen (s t : State) : Prop := t.disp = s.disp ∧ t.needsRedraw = s.needsRedraw

/-- The keypad image and the fault field are as before. -/
def KeepsKeysAndFault (s t : State) : Prop := t.keys = s.keys ∧ t.fault = s.fault

/-- Everything but the registers, I, PC and `awaiting_key` is as before. -/
def KeepsOutsideRegsAndI (s t : State) : Prop :=
  KeepsStack s t ∧ KeepsTimers s t ∧ KeepsMemory s t ∧ KeepsScreen s t ∧ KeepsKeysAndFault s t ∧ t.draws = s.draws

/-- Everything but the listed registers, PC and `awaiting_key` is as before. -/
def ChangesOnlyV (xs : List Nibble) (s t : State) : Prop :=
  KeepsV xs s t ∧ t.i = s.i ∧ KeepsOutsideRegsAndI s t

/-- The instruction answers a next state and moves to the next instruction: PC = pc0 + 2, `awaiting_key` false (R24,
R31, R72). -/
def CompletesTo (i : Instr) (s t : State) : Prop :=
  exec i s = .next t ∧ t.pc = s.pc + 2#16 ∧ t.awaitingKey = false

/-- The instruction takes the fault: a next state in which only the fault record is new (R213). -/
def TakesFault (i : Instr) (s : State) (k : Fault) : Prop :=
  exec i s = .next { s with fault := some { kind := k, pc0 := s.pc, opcode := some (encode i) } }

/-- Pixel (c, r) is one that a 1 bit of the sprite rows falls on, drawn from column `xs` and row `ys` with wrap-around
(R171). -/
def SpriteCovers (xs ys : Nat) (rows : Nat → Byte) (n : Nat) (c : Fin 64) (r : Fin 32) : Prop :=
  ∃ k j : Nat, k < n ∧ j < 8 ∧ (rows k).getLsbD (7 - j) = true ∧ c.val = (xs + j) % 64 ∧ r.val = (ys + k) % 32

/-- The column or row a draw starts from: V[x] modulo the size, read after VF was reset (R171, D23). -/
def drawStart (s : State) (x : Nibble) (size : Nat) : Nat := if x = vf then 0 else (s.getV x).toNat % size

/-- The sprite row `k` that a draw reads: the byte at I + k (R171). -/
def spriteRow (s : State) (k : Nat) : Byte := s.byteAt specParams (s.i.toNat + k)

/-- Memory keeps its canonical form. -/
def Machine.State.MemOk (s : State) : Prop := s.mem.wf specParams = true

/-- The reserved region, the font in it, still holds its reset contents: "never mutated" (R33, R51, R55). -/
def Machine.State.ReservedIntact (s : State) : Prop :=
  ∀ a : Nat, a < 0x200 → s.byteAt specParams a = initialByte specParams a

/-- PC is at most 0x10FE and every return address at most 0x1000, so no PC update wraps (R25). -/
def Machine.State.PcBounded (s : State) : Prop :=
  s.pc.toNat ≤ 0x10FE ∧ ∀ k : Fin 16, (s.stack[k]).toNat ≤ 0x1000

/-- The invariant of the machine. -/
def Machine.State.Inv (s : State) : Prop := s.MemOk ∧ s.ReservedIntact ∧ s.PcBounded

end Sys2Proof
end

