-- ==== Sys2Proof/Certificates/Slice0/Obligations.lean ====
section
/-! DEFINITION. The statements about the crust-8 CHIP-8 core, from the spec's numbered rules. Words used in them
(`CompletesTo`, `TakesFault`, `ChangesOnlyV`, `KeepsMemoryBut`, `SpriteCovers`, ...) are defined in Safety.lean. In every
statement about `exec`, `s` is the state before the step, PC = pc0. -/

open Sys2Proof Sys2Proof.Machine

/-! ## Encoding and decoding -/

/-- R74, R75, R80: decoding the word of a well-formed instruction gives it back, with every operand at every value. -/
def Obligations.DecodeOfEncodeIsIdentity : Prop :=
  ∀ i : Instr, i.wellFormed = true → decode (encode i) = .ok i

/-- A word that decodes is the word of its term of `Instr`, and decode answers only well-formed terms. That no two words
decode to one term is the model's own form and no rule of the spec: by R76 every y of 8xy6 and of 8xyE selects the SAME
instruction, and the model keeps the ignored y as an operand of SHR and SHL (log entry 14, DEDUCED), where it has no
effect (`Obligations.ShiftsMoveVxByOneBit` holds for every y). -/
def Obligations.EncodeOfDecodeIsIdentity : Prop :=
  ∀ (op : Word) (i : Instr), decode op = .ok i → encode i = op ∧ i.wellFormed = true

/-- R80: decode agrees with the match/mask map. A word that decodes belongs to the first row it matches, and a word that
matches a row decodes to an instruction of its first; a word that matches none is a DecodeFailure. Rows 1 and 2 take
priority over row 3, and every other pair of rows is disjoint. -/
def Obligations.DecoderAgreesWithOpcodeMap : Prop :=
  (∀ (op : Word) (i : Instr), decode op = .ok i → opcodeRow op = some i.row) ∧
  (∀ (op : Word) (n : Nat), opcodeRow op = some n → ∃ i : Instr, decode op = .ok i ∧ i.row = n) ∧
  (∀ op : Word, opcodeRow op = none → decode op = .error (.decodeFailure op)) ∧
  (∀ op : Word, ∀ a ∈ opcodeMap, ∀ b ∈ opcodeMap, op &&& a.2.2 = a.2.1 → op &&& b.2.2 = b.2.1 →
    a.1 = b.1 ∨ (a.1 = 3 ∧ b.1 ≤ 2) ∨ (b.1 = 3 ∧ a.1 ≤ 2))

/-- R79 (and the word classes of R83): exactly these words of the families with a secondary decode are no instruction,
and every word of the other families is one. -/
def Obligations.SecondaryDecodeOfFamilies : Prop :=
  ∀ op : Word, decode op = .error (.decodeFailure op) ↔
    (opN1 op = 0x5#4 ∧ opN op ≠ 0x0#4) ∨
    (opN1 op = 0x8#4 ∧ opN op ∉ [0x0#4, 0x1#4, 0x2#4, 0x3#4, 0x4#4, 0x5#4, 0x6#4, 0x7#4, 0xE#4]) ∨
    (opN1 op = 0x9#4 ∧ opN op ≠ 0x0#4) ∨
    (opN1 op = 0xE#4 ∧ opKk op ∉ [0x9E#8, 0xA1#8]) ∨
    (opN1 op = 0xF#4 ∧
      opKk op ∉ [0x07#8, 0x0A#8, 0x15#8, 0x18#8, 0x1E#8, 0x29#8, 0x33#8, 0x55#8, 0x65#8])

/-- R78: family 0x0 never fails: 00E0 is CLS, 00EE is RET, every other word is SYS. -/
def Obligations.FamilyZeroNeverFails : Prop :=
  ∀ op : Word, opN1 op = 0x0#4 →
    decode op = .ok (if op = 0x00E0#16 then .cls else if op = 0x00EE#16 then .ret else .sys (opNnn op))

/-- Seven words written out from the encodings of R80, of the families 0x0, 0x2, 0x8, 0xD, 0xE and 0xF (R77: by n1), decode
to what they stand for; three illegal words of R83 do not decode. A sanity statement. -/
def Obligations.SampleWordsDecode : Prop :=
  decode 0x00E0#16 = .ok .cls ∧ decode 0x2ABC#16 = .ok (.call 0xABC#12) ∧
  decode 0x8AB7#16 = .ok (.subn 0xA#4 0xB#4) ∧ decode 0xF21E#16 = .ok (.addI 0x2#4) ∧
  decode 0xD125#16 = .ok (.drw 0x1#4 0x2#4 0x5#4) ∧ decode 0xE29E#16 = .ok (.skp 0x2#4) ∧
  decode 0xFF65#16 = .ok (.ldVxMem 0xF#4) ∧ decode 0x5121#16 = .error (.decodeFailure 0x5121#16) ∧
  decode 0x8008#16 = .error (.decodeFailure 0x8008#16) ∧ decode 0xF0FF#16 = .error (.decodeFailure 0xF0FF#16)

/-! ## Fetch, step and faults -/

/-- R71: the fetch reads `MemRead(PC) * 256 + MemRead(PC + 1)`; its faults are those of the two reads, the lowest address
first. -/
def Obligations.FetchIsBigEndian : Prop :=
  ∀ (p : Params) (s : State),
    (s.pc.toNat < 0xFFF → ∃ op : Word, s.fetch16 p = .ok op ∧
      op.toNat = (s.byteAt p s.pc.toNat).toNat * 256 + (s.byteAt p (s.pc.toNat + 1)).toNat) ∧
    (s.pc.toNat = 0xFFF → s.fetch16 p = .error (.addressOutOfRange 0x1000)) ∧
    (0x1000 ≤ s.pc.toNat → s.fetch16 p = .error (.addressOutOfRange s.pc.toNat))

/-- R72: a step of a machine with no fault recorded, whose word at PC decodes to `i`, is `exec i` on the same state; the
PC advance is part of `exec i` (log entry 6, DEDUCED). -/
def Obligations.StepRunsDecodedInstruction : Prop :=
  ∀ (s : State) (i : Instr), s.fault = none → s.pc.toNat < 0xFFF → decode s.wordAtPc = .ok i → step s = exec i s

/-- R212, (1) and (2): a step that cannot fetch or decode takes AddressOutOfRange with no opcode, or DecodeFailure with
the opcode, and nothing else changes. -/
def Obligations.FetchAndDecodeFaultsAreTaken : Prop :=
  ∀ s : State, s.fault = none →
    (s.pc.toNat < 0xFFF → decode s.wordAtPc = .error (.decodeFailure s.wordAtPc) →
      step s = .next { s with fault := some ⟨.decodeFailure s.wordAtPc, s.pc, some s.wordAtPc⟩ }) ∧
    (s.pc.toNat = 0xFFF → step s = .next { s with fault := some ⟨.addressOutOfRange 0x1000, s.pc, none⟩ }) ∧
    (0x1000 ≤ s.pc.toNat →
      step s = .next { s with fault := some ⟨.addressOutOfRange s.pc.toNat, s.pc, none⟩ })

/-- R214 (the spec's decisions D13, D18): a faulted machine is frozen. Step returns the recorded fault and changes
nothing, a tick changes nothing, a load is refused, set_key and ack_redraw still act, and only construct clears the
fault. -/
def Obligations.FaultedMachineIsFrozen : Prop :=
  ∀ (s : State) (r : FaultRecord), s.fault = some r →
    step s = .next s ∧ s.perform .step = .next (s, .stepFault r) ∧
    s.perform .tickTimers = .next (s, .ok) ∧
    (∀ rom : List Byte, s.perform (.load rom) = .next (s, .loadRefused .machineFaulted)) ∧
    (∀ (k : Nibble) (d : Bool), ∃ t, s.perform (.setKey k d) = .next (t, .ok) ∧ t.key k = d ∧ t.fault = some r) ∧
    (∃ t, s.perform .ackRedraw = .next (t, .ok) ∧ t.needsRedraw = false ∧ t.fault = some r) ∧
    (∀ (o : HostOp) (t : State) (reply : Reply), o ≠ .construct → s.perform o = .next (t, reply) → t.fault = some r) ∧
    (∃ t, s.perform .construct = .next (t, .ok) ∧ t.fault = none)

/-- R213 (the spec's decision D13): a step that raises a fault discards every write, so only the record is new; the
record holds pc0 and the opcode, or no opcode when the fetch faulted; and the fault is returned to the driver. -/
def Obligations.FaultingStepDiscardsEveryWrite : Prop :=
  ∀ (s t : State) (r : FaultRecord), s.fault = none → step s = .next t → t.fault = some r →
    t = { s with fault := some r } ∧ r.pc0 = s.pc ∧
    r.opcode = (if s.pc.toNat < 0xFFF then some s.wordAtPc else none) ∧ s.perform .step = .next (t, .stepFault r)

/-- Every step of every state answers a next state: the model has no stop. (The model's form: log entry 5.) -/
def Obligations.EveryStepAnswersNext : Prop := ∀ s : State, ∃ t : State, step s = .next t

/-- A word laid where the next step fetches is the instruction the next step runs, from every state (the model's own
tool: log entry 7). -/
def Obligations.PlacedWordRunsNext : Prop :=
  ∀ (s : State) (op : Word) (i : Instr), decode op = .ok i →
    step (s.withFetchWord 16 op.toNat) = exec i (s.withFetchWord 16 op.toNat)

/-! ## Control transfer and skips -/

/-- R101, R102, R108: SYS and JP go to nnn, JP V0 to nnn + V0, which is at most 0x10FE; nothing else changes. The clause on
`exec (.sys nnn)` also takes the ill-formed terms SYS 0x0E0 and SYS 0x0EE, which R101 excludes and no word decodes to: for
them the jump is the model's choice (log entry 22, DESIGN CHOICE). -/
def Obligations.JumpsReachTheirTarget : Prop :=
  ∀ (nnn : Addr12) (s : State),
    (nnn ≠ 0x0E0#12 → nnn ≠ 0x0EE#12 → decode (0x0#4 ++ nnn) = .ok (.sys nnn)) ∧
    decode (0x1#4 ++ nnn) = .ok (.jp nnn) ∧ decode (0xB#4 ++ nnn) = .ok (.jpV0 nnn) ∧
    (∃ t, exec (.sys nnn) s = .next t ∧ t.pc.toNat = nnn.toNat ∧ t.awaitingKey = false ∧ ChangesOnlyV [] s t) ∧
    (∃ t, exec (.jp nnn) s = .next t ∧ t.pc.toNat = nnn.toNat ∧ t.awaitingKey = false ∧ ChangesOnlyV [] s t) ∧
    (∃ t, exec (.jpV0 nnn) s = .next t ∧ t.pc.toNat = nnn.toNat + (s.getV 0x0#4).toNat ∧ t.pc.toNat ≤ 0x10FE ∧
      t.awaitingKey = false ∧ ChangesOnlyV [] s t)

/-- R103: CALL pushes pc0 + 2 and jumps; with 16 entries it raises StackOverflow. -/
def Obligations.CallPushesReturnAddress : Prop :=
  ∀ (nnn : Addr12) (s : State),
    decode (0x2#4 ++ nnn) = .ok (.call nnn) ∧
    (s.sp.val < 16 → ∃ t, exec (.call nnn) s = .next t ∧ t.pc.toNat = nnn.toNat ∧ t.sp.val = s.sp.val + 1 ∧
      t.stack[s.sp.val]? = some (s.pc + 2#16) ∧ (∀ k : Nat, k ≠ s.sp.val → t.stack[k]? = s.stack[k]?) ∧
      t.awaitingKey = false ∧ KeepsV [] s t ∧ t.i = s.i ∧ KeepsTimers s t ∧ KeepsMemory s t ∧ KeepsScreen s t ∧
      KeepsKeysAndFault s t ∧ t.draws = s.draws) ∧
    (s.sp.val = 16 → TakesFault (.call nnn) s .stackOverflow)

/-- R100: RET pops the return address into PC and leaves the entry in the array; with no entry it raises
StackUnderflow. -/
def Obligations.ReturnPopsReturnAddress : Prop :=
  ∀ s : State,
    decode 0x00EE#16 = .ok .ret ∧
    (s.sp.val ≠ 0 → ∃ t, exec .ret s = .next t ∧ s.stack[s.sp.val - 1]? = some t.pc ∧ t.sp.val + 1 = s.sp.val ∧
      t.stack = s.stack ∧ t.awaitingKey = false ∧ KeepsV [] s t ∧ t.i = s.i ∧ KeepsTimers s t ∧ KeepsMemory s t ∧
      KeepsScreen s t ∧ KeepsKeysAndFault s t ∧ t.draws = s.draws) ∧
    (s.sp.val = 0 → TakesFault .ret s .stackUnderflow)

/-- R104, R105: the immediate skips pass over one word when V[x] equals (SE) or differs from (SNE) kk; nothing but PC
changes. -/
def Obligations.ImmediateSkips : Prop :=
  ∀ (x : Nibble) (kk : Byte) (s : State),
    decode (0x3#4 ++ x ++ kk) = .ok (.seImm x kk) ∧ decode (0x4#4 ++ x ++ kk) = .ok (.sneImm x kk) ∧
    (∃ t, exec (.seImm x kk) s = .next t ∧ t.pc = (if s.getV x = kk then s.pc + 4#16 else s.pc + 2#16) ∧
      t.awaitingKey = false ∧ ChangesOnlyV [] s t) ∧
    (∃ t, exec (.sneImm x kk) s = .next t ∧ t.pc = (if s.getV x = kk then s.pc + 2#16 else s.pc + 4#16) ∧
      t.awaitingKey = false ∧ ChangesOnlyV [] s t)

/-- R106, R107: the register skips pass over one word when V[x] equals (SE) or differs from (SNE) V[y]; nothing but PC
changes. With another low nibble the word is a DecodeFailure. -/
def Obligations.RegisterSkips : Prop :=
  ∀ (x y : Nibble) (s : State),
    decode (0x5#4 ++ x ++ y ++ 0x0#4) = .ok (.seReg x y) ∧ decode (0x9#4 ++ x ++ y ++ 0x0#4) = .ok (.sneReg x y) ∧
    (∀ n : Nibble, n ≠ 0x0#4 →
      decode (0x5#4 ++ x ++ y ++ n) = .error (.decodeFailure (0x5#4 ++ x ++ y ++ n)) ∧
      decode (0x9#4 ++ x ++ y ++ n) = .error (.decodeFailure (0x9#4 ++ x ++ y ++ n))) ∧
    (∃ t, exec (.seReg x y) s = .next t ∧ t.pc = (if s.getV x = s.getV y then s.pc + 4#16 else s.pc + 2#16) ∧
      t.awaitingKey = false ∧ ChangesOnlyV [] s t) ∧
    (∃ t, exec (.sneReg x y) s = .next t ∧ t.pc = (if s.getV x = s.getV y then s.pc + 2#16 else s.pc + 4#16) ∧
      t.awaitingKey = false ∧ ChangesOnlyV [] s t)

/-! ## Register arithmetic and logic -/

/-- R122: LD Vx, kk. -/
def Obligations.LoadImmediate : Prop :=
  ∀ (x : Nibble) (kk : Byte) (s : State),
    decode (0x6#4 ++ x ++ kk) = .ok (.ldImm x kk) ∧
    ∃ t, CompletesTo (.ldImm x kk) s t ∧ t.getV x = kk ∧ ChangesOnlyV [x] s t

/-- R123: ADD Vx, kk wraps and writes no flag. -/
def Obligations.AddImmediateWrapsWithoutFlag : Prop :=
  ∀ (x : Nibble) (kk : Byte) (s : State),
    decode (0x7#4 ++ x ++ kk) = .ok (.addImm x kk) ∧
    ∃ t, CompletesTo (.addImm x kk) s t ∧ (t.getV x).toNat = ((s.getV x).toNat + kk.toNat) % 256 ∧
      ChangesOnlyV [x] s t

/-- R124 to R127: the copy and the three logic operations, bit by bit, with VF kept unless it is the destination. -/
def Obligations.CopyAndLogicKeepVf : Prop :=
  ∀ (x y : Nibble) (s : State),
    (decode (0x8#4 ++ x ++ y ++ 0x0#4) = .ok (.ldReg x y) ∧
      ∃ t, CompletesTo (.ldReg x y) s t ∧ t.getV x = s.getV y ∧ ChangesOnlyV [x] s t) ∧
    (decode (0x8#4 ++ x ++ y ++ 0x1#4) = .ok (.orReg x y) ∧
      ∃ t, CompletesTo (.orReg x y) s t ∧ ChangesOnlyV [x] s t ∧
        ∀ j : Nat, (t.getV x).getLsbD j = ((s.getV x).getLsbD j || (s.getV y).getLsbD j)) ∧
    (decode (0x8#4 ++ x ++ y ++ 0x2#4) = .ok (.andReg x y) ∧
      ∃ t, CompletesTo (.andReg x y) s t ∧ ChangesOnlyV [x] s t ∧
        ∀ j : Nat, (t.getV x).getLsbD j = ((s.getV x).getLsbD j && (s.getV y).getLsbD j)) ∧
    (decode (0x8#4 ++ x ++ y ++ 0x3#4) = .ok (.xorReg x y) ∧
      ∃ t, CompletesTo (.xorReg x y) s t ∧ ChangesOnlyV [x] s t ∧
        ∀ j : Nat, (t.getV x).getLsbD j = ((s.getV x).getLsbD j != (s.getV y).getLsbD j))

/-- R128: ADD Vx, Vy stores the low 8 bits of the sum and the carry in VF; with x = 0xF only the carry stays (the spec's
decision D6). -/
def Obligations.AddRegistersSetsCarry : Prop :=
  ∀ (x y : Nibble) (s : State),
    decode (0x8#4 ++ x ++ y ++ 0x4#4) = .ok (.addReg x y) ∧
    ∃ t, CompletesTo (.addReg x y) s t ∧ ChangesOnlyV [x, vf] s t ∧
      (x ≠ vf → (t.getV x).toNat = ((s.getV x).toNat + (s.getV y).toNat) % 256) ∧
      (t.getV vf).toNat = (if 255 < (s.getV x).toNat + (s.getV y).toNat then 1 else 0)

/-- R129, R131: SUB and SUBN wrap, and VF is 1 exactly when the minuend is strictly greater; with x = 0xF only the flag
stays (the spec's decision D6). -/
def Obligations.SubtractionsSetStrictFlag : Prop :=
  ∀ (x y : Nibble) (s : State),
    (decode (0x8#4 ++ x ++ y ++ 0x5#4) = .ok (.subReg x y) ∧
      ∃ t, CompletesTo (.subReg x y) s t ∧ ChangesOnlyV [x, vf] s t ∧
        (x ≠ vf → (t.getV x).toNat = ((s.getV x).toNat + 256 - (s.getV y).toNat) % 256) ∧
        (t.getV vf).toNat = (if (s.getV y).toNat < (s.getV x).toNat then 1 else 0)) ∧
    (decode (0x8#4 ++ x ++ y ++ 0x7#4) = .ok (.subn x y) ∧
      ∃ t, CompletesTo (.subn x y) s t ∧ ChangesOnlyV [x, vf] s t ∧
        (x ≠ vf → (t.getV x).toNat = ((s.getV y).toNat + 256 - (s.getV x).toNat) % 256) ∧
        (t.getV vf).toNat = (if (s.getV x).toNat < (s.getV y).toNat then 1 else 0))

/-- R130, R132, for every value of the ignored y (R76): the shifts move Vx by one bit, zero filling, and VF takes the bit
shifted out; with x = 0xF only that bit stays (the spec's decision D6). -/
def Obligations.ShiftsMoveVxByOneBit : Prop :=
  ∀ (x y : Nibble) (s : State),
    (decode (0x8#4 ++ x ++ y ++ 0x6#4) = .ok (.shr x y) ∧
      ∃ t, CompletesTo (.shr x y) s t ∧ ChangesOnlyV [x, vf] s t ∧
        (x ≠ vf → ∀ j : Nat, (t.getV x).getLsbD j = (s.getV x).getLsbD (j + 1)) ∧
        t.getV vf = (if (s.getV x).getLsbD 0 then 1#8 else 0#8)) ∧
    (decode (0x8#4 ++ x ++ y ++ 0xE#4) = .ok (.shl x y) ∧
      ∃ t, CompletesTo (.shl x y) s t ∧ ChangesOnlyV [x, vf] s t ∧
        (x ≠ vf → (t.getV x).getLsbD 0 = false ∧
          ∀ j : Nat, j < 7 → (t.getV x).getLsbD (j + 1) = (s.getV x).getLsbD j) ∧
        t.getV vf = (if (s.getV x).getLsbD 7 then 1#8 else 0#8))

/-- R133: RND stores the draw masked by kk, for every value of the draw (`Config.rnd` is a free value, log entry 1), and
the next execution draws afresh; bits where kk is 0 are 0. -/
def Obligations.RandomIsMaskedDraw : Prop :=
  ∀ (x : Nibble) (kk : Byte) (s : State),
    decode (0xC#4 ++ x ++ kk) = .ok (.rnd x kk) ∧
    ∃ t, CompletesTo (.rnd x kk) s t ∧ t.getV x = Config.rnd s.draws &&& kk ∧ t.draws = s.draws + 1 ∧
      (∀ j : Nat, kk.getLsbD j = false → (t.getV x).getLsbD j = false) ∧ KeepsV [x] s t ∧ t.i = s.i ∧
      KeepsStack s t ∧ KeepsTimers s t ∧ KeepsMemory s t ∧ KeepsScreen s t ∧ KeepsKeysAndFault s t

/-! ## Index register and memory transfer -/

/-- R150: LD I, nnn. -/
def Obligations.LoadIndex : Prop :=
  ∀ (nnn : Addr12) (s : State),
    decode (0xA#4 ++ nnn) = .ok (.ldI nnn) ∧
    ∃ t, CompletesTo (.ldI nnn) s t ∧ t.i.toNat = nnn.toNat ∧ KeepsV [] s t ∧ KeepsOutsideRegsAndI s t

/-- R151 (the spec's decision D8): ADD I, Vx keeps VF and every sum that fits 16 bits; a larger one raises
IndexOverflow. -/
def Obligations.AddIndexKeepsVf : Prop :=
  ∀ (x : Nibble) (s : State),
    decode (0xF#4 ++ x ++ 0x1E#8) = .ok (.addI x) ∧
    (s.i.toNat + (s.getV x).toNat ≤ 0xFFFF →
      ∃ t, CompletesTo (.addI x) s t ∧ t.i.toNat = s.i.toNat + (s.getV x).toNat ∧ KeepsV [] s t ∧
        KeepsOutsideRegsAndI s t) ∧
    (0xFFFF < s.i.toNat + (s.getV x).toNat →
      TakesFault (.addI x) s (.indexOverflow (s.i.toNat + (s.getV x).toNat)))

/-- R152: LD F, Vx takes the glyph of the low nibble; the address lies in FONT_BASE..FONT_BASE + 75 for every legal
FONT_BASE. -/
def Obligations.GlyphAddressOfLowNibble : Prop :=
  (∀ (x : Nibble) (s : State),
    decode (0xF#4 ++ x ++ 0x29#8) = .ok (.ldF x) ∧
    ∃ t, CompletesTo (.ldF x) s t ∧
      t.i.toNat = specParams.fontBase.toNat + (s.getV x).toNat % 16 * 5 ∧ KeepsV [] s t ∧
      KeepsOutsideRegsAndI s t) ∧
  (∀ (p : Params) (b : Byte), p.valid = true →
    (glyphAddress p b).toNat = p.fontBase.toNat + b.toNat % 16 * 5 ∧
    (glyphAddress p b).toNat ≤ p.fontBase.toNat + 75)

/-- For every legal FONT_BASE and every FONT_DATA, the five bytes at the glyph address LD F gives are that digit's glyph
in reset memory, and they lie below 0x200. -/
def Obligations.GlyphBytesAreResident : Prop :=
  ∀ (p : Params) (b : Byte) (k : Nat), p.valid = true → k < 5 →
    (glyphAddress p b).toNat + k < 0x200 ∧
    p.fontData.toList[b.toNat % 16 * 5 + k]? = some (State.reset.byteAt p ((glyphAddress p b).toNat + k))

/-- R55 (the spec's decisions D1, D2), under either LOW_WRITE_POLICY: the two checks of a store in their order, and its
effect: the one byte, with memory's canonical form kept. -/
def Obligations.WriteChecksThenStores : Prop :=
  ∀ (p : Params) (s : State) (a : Nat) (v : Byte),
    (0x1000 ≤ a → s.memWrite p a v = .error (.addressOutOfRange a)) ∧
    (a < 0x200 → p.lowWritePolicy = .fault → s.memWrite p a v = .error (.reservedWrite a)) ∧
    (a < 0x1000 → (0x200 ≤ a ∨ p.lowWritePolicy = .allow) → ∃ t, s.memWrite p a v = .ok t ∧
      t = { s with mem := t.mem } ∧ t.memRead p a = .ok v ∧ (∀ a' : Nat, a' ≠ a → t.byteAt p a' = s.byteAt p a') ∧
      (s.mem.wf p = true → t.mem.wf p = true))

/-- R153: LD B stores the three decimal digits of V[x] at I, I+1, I+2 and keeps I, where the three addresses are in program
memory; else it raises ReservedWrite or AddressOutOfRange at the lowest bad address and writes nothing (the spec's
decisions D1, D2). -/
def Obligations.BcdStoreWritesDigits : Prop :=
  ∀ (x : Nibble) (s : State),
    decode (0xF#4 ++ x ++ 0x33#8) = .ok (.ldB x) ∧
    (0x200 ≤ s.indexAddr → s.indexAddr + 2 < 0x1000 → ∃ t, CompletesTo (.ldB x) s t ∧
      (t.byteAt specParams s.indexAddr).toNat = (s.getV x).toNat / 100 ∧
      (t.byteAt specParams (s.indexAddr + 1)).toNat = (s.getV x).toNat / 10 % 10 ∧
      (t.byteAt specParams (s.indexAddr + 2)).toNat = (s.getV x).toNat % 10 ∧
      KeepsMemoryBut s.indexAddr 3 s t ∧ KeepsV [] s t ∧ t.i = s.i ∧ KeepsStack s t ∧ KeepsTimers s t ∧
      KeepsScreen s t ∧ KeepsKeysAndFault s t ∧ t.draws = s.draws) ∧
    (s.indexAddr < 0x200 → TakesFault (.ldB x) s (.reservedWrite s.indexAddr)) ∧
    (0x1000 ≤ s.indexAddr + 2 → TakesFault (.ldB x) s (.addressOutOfRange (max s.indexAddr 0x1000)))

/-- R154: LD [I], Vx stores V0 to Vx, x included, at I.. and keeps I (the spec's decision D7), where every address is in
program memory; else it raises ReservedWrite or AddressOutOfRange at the lowest bad address and writes nothing (D1, D2). -/
def Obligations.BlockStoreWritesRange : Prop :=
  ∀ (x : Nibble) (s : State),
    decode (0xF#4 ++ x ++ 0x55#8) = .ok (.ldMemVx x) ∧
    (0x200 ≤ s.indexAddr → s.indexAddr + x.toNat < 0x1000 → ∃ t, CompletesTo (.ldMemVx x) s t ∧
      (∀ k : Nibble, k.toNat ≤ x.toNat → t.byteAt specParams (s.indexAddr + k.toNat) = s.getV k) ∧
      KeepsMemoryBut s.indexAddr (x.toNat + 1) s t ∧ KeepsV [] s t ∧ t.i = s.i ∧ KeepsStack s t ∧
      KeepsTimers s t ∧ KeepsScreen s t ∧ KeepsKeysAndFault s t ∧ t.draws = s.draws) ∧
    (s.indexAddr < 0x200 → TakesFault (.ldMemVx x) s (.reservedWrite s.indexAddr)) ∧
    (0x1000 ≤ s.indexAddr + x.toNat → TakesFault (.ldMemVx x) s (.addressOutOfRange (max s.indexAddr 0x1000)))

/-- R155: LD Vx, [I] loads V0 to Vx, x included, from I.. (below 0x200 too) and keeps I (the spec's decision D7), where
every address is in memory; else it raises AddressOutOfRange at the lowest bad address and writes no register (D1). -/
def Obligations.BlockLoadReadsRange : Prop :=
  ∀ (x : Nibble) (s : State),
    decode (0xF#4 ++ x ++ 0x65#8) = .ok (.ldVxMem x) ∧
    (s.indexAddr + x.toNat < 0x1000 → ∃ t, CompletesTo (.ldVxMem x) s t ∧
      (∀ k : Nibble, k.toNat ≤ x.toNat → t.getV k = s.byteAt specParams (s.indexAddr + k.toNat)) ∧
      (∀ k : Nibble, x.toNat < k.toNat → t.getV k = s.getV k) ∧ t.i = s.i ∧ KeepsOutsideRegsAndI s t) ∧
    (0x1000 ≤ s.indexAddr + x.toNat → TakesFault (.ldVxMem x) s (.addressOutOfRange (max s.indexAddr 0x1000)))

/-- R154 and R155 together: loading back what a block store wrote gives every register its value again. -/
def Obligations.StoreThenLoadRestoresRegisters : Prop :=
  ∀ (x : Nibble) (s : State), 0x200 ≤ s.indexAddr → s.indexAddr + x.toNat < 0x1000 →
    ∃ t, exec (.ldMemVx x) s = .next t ∧
      ∀ v' : Vector Byte 16, ∃ u, exec (.ldVxMem x) { t with v := v' } = .next u ∧
        ∀ k : Nibble, k.toNat ≤ x.toNat → u.getV k = s.getV k

/-! ## Display -/

/-- R170: CLS clears every pixel and asks for a redraw, also on a clear screen (the spec's decision D12). -/
def Obligations.ClearScreen : Prop :=
  ∀ s : State,
    decode 0x00E0#16 = .ok .cls ∧
    ∃ t, CompletesTo .cls s t ∧ (∀ (c : Fin 64) (r : Fin 32), getPixel t.disp c r = false) ∧ t.needsRedraw = true ∧
      KeepsV [] s t ∧ t.i = s.i ∧ KeepsStack s t ∧ KeepsTimers s t ∧ KeepsMemory s t ∧ KeepsKeysAndFault s t ∧
      t.draws = s.draws

/-- R171: where every sprite row is in memory (or n = 0), exactly the pixels under the sprite's 1 bits toggle, VF is 1
exactly when one of them was set, and a redraw is asked for. Else the draw raises AddressOutOfRange at the lowest bad
address and changes nothing. With x or y = 0xF the coordinate is 0 (the spec's decision D23). -/
def Obligations.DrawTogglesExactlyTheSprite : Prop :=
  ∀ (x y n : Nibble) (s : State),
    decode (0xD#4 ++ x ++ y ++ n) = .ok (.drw x y n) ∧
    ((n = 0#4 ∨ s.indexAddr + n.toNat ≤ 0x1000) → ∃ t, CompletesTo (.drw x y n) s t ∧
      (∀ (c : Fin 64) (r : Fin 32), getPixel t.disp c r ≠ getPixel s.disp c r ↔
        SpriteCovers (drawStart s x 64) (drawStart s y 32) (spriteRow s) n.toNat c r) ∧
      ((t.getV vf = 1#8 ∧ ∃ (c : Fin 64) (r : Fin 32), getPixel s.disp c r = true ∧
          SpriteCovers (drawStart s x 64) (drawStart s y 32) (spriteRow s) n.toNat c r) ∨
        (t.getV vf = 0#8 ∧ ¬ ∃ (c : Fin 64) (r : Fin 32), getPixel s.disp c r = true ∧
          SpriteCovers (drawStart s x 64) (drawStart s y 32) (spriteRow s) n.toNat c r)) ∧
      t.needsRedraw = true ∧ KeepsV [vf] s t ∧ t.i = s.i ∧ KeepsStack s t ∧ KeepsTimers s t ∧ KeepsMemory s t ∧
      KeepsKeysAndFault s t ∧ t.draws = s.draws) ∧
    (n ≠ 0#4 → 0x1000 < s.indexAddr + n.toNat →
      TakesFault (.drw x y n) s (.addressOutOfRange (max s.indexAddr 0x1000)))

/-- R171's pseudocode run twice: drawing the same sprite twice at the same place restores the framebuffer, and the second
draw sets VF = 1 exactly when a 1 bit of the sprite fell on a pixel that was clear at first. So where the first draw met no
set pixel, the second sets VF = 1 exactly when the sprite has a bit set: the case in which R171 (g)'s second sentence
agrees with the pseudocode (log entry 24, DEDUCED). -/
def Obligations.DrawTwiceRestoresScreen : Prop :=
  ∀ (x y n : Nibble) (s : State), (n = 0#4 ∨ s.indexAddr + n.toNat ≤ 0x1000) →
    ∃ t u, exec (.drw x y n) s = .next t ∧ exec (.drw x y n) t = .next u ∧ u.disp = s.disp ∧
      ((u.getV vf = 1#8 ∧ ∃ (c : Fin 64) (r : Fin 32), getPixel s.disp c r = false ∧
          SpriteCovers (drawStart s x 64) (drawStart s y 32) (spriteRow s) n.toNat c r) ∨
        (u.getV vf = 0#8 ∧ ∀ (c : Fin 64) (r : Fin 32),
          SpriteCovers (drawStart s x 64) (drawStart s y 32) (spriteRow s) n.toNat c r → getPixel s.disp c r = true)) ∧
      (t.getV vf = 0#8 → (u.getV vf = 1#8 ↔ ∃ k : Nat, k < n.toNat ∧ spriteRow s k ≠ 0#8))

/-! ## Keys and timers -/

/-- SKP and SKNP skip when the key V[x] names is down (SKP) or up (SKNP), and raise KeyIndexOutOfRange above 0xF. The key
index and the skip are what the spec marks as general knowledge (G3), the fault its decision D9. -/
def Obligations.KeySkips : Prop :=
  ∀ (x : Nibble) (s : State),
    decode (0xE#4 ++ x ++ 0x9E#8) = .ok (.skp x) ∧ decode (0xE#4 ++ x ++ 0xA1#8) = .ok (.sknp x) ∧
    (∀ k : Nibble, (s.getV x).toNat = k.toNat →
      (∃ t, exec (.skp x) s = .next t ∧ t.pc = (if s.key k then s.pc + 4#16 else s.pc + 2#16) ∧
        t.awaitingKey = false ∧ ChangesOnlyV [] s t) ∧
      (∃ t, exec (.sknp x) s = .next t ∧ t.pc = (if s.key k then s.pc + 2#16 else s.pc + 4#16) ∧
        t.awaitingKey = false ∧ ChangesOnlyV [] s t)) ∧
    (0xF < (s.getV x).toNat → TakesFault (.skp x) s (.keyIndexOutOfRange (s.getV x)) ∧
      TakesFault (.sknp x) s (.keyIndexOutOfRange (s.getV x)))

/-- R195: with keys down, LD Vx, K stores the least one (the spec's decision D10) and goes on; with none, PC stays at pc0,
`awaiting_key` is set and nothing else changes. -/
def Obligations.WaitForKeySpinsOrStoresLeast : Prop :=
  ∀ (x : Nibble) (s : State),
    decode (0xF#4 ++ x ++ 0x0A#8) = .ok (.ldVxK x) ∧
    (∀ k : Nibble, s.key k = true → (∀ j : Nibble, j.toNat < k.toNat → s.key j = false) →
      ∃ t, CompletesTo (.ldVxK x) s t ∧ (t.getV x).toNat = k.toNat ∧ ChangesOnlyV [x] s t) ∧
    ((∀ k : Nibble, s.key k = false) →
      ∃ t, exec (.ldVxK x) s = .next t ∧ t.pc = s.pc ∧ t.awaitingKey = true ∧ ChangesOnlyV [] s t)

/-- R194, R196, R197: the moves between Vx and the timers. -/
def Obligations.TimerMoves : Prop :=
  ∀ (x : Nibble) (s : State),
    (decode (0xF#4 ++ x ++ 0x07#8) = .ok (.ldVxDt x) ∧
      ∃ t, CompletesTo (.ldVxDt x) s t ∧ t.getV x = s.dt ∧ ChangesOnlyV [x] s t) ∧
    (decode (0xF#4 ++ x ++ 0x15#8) = .ok (.ldDtVx x) ∧
      ∃ t, CompletesTo (.ldDtVx x) s t ∧ t.dt = s.getV x ∧ t.st = s.st ∧ KeepsV [] s t ∧ t.i = s.i ∧
        KeepsStack s t ∧ KeepsMemory s t ∧ KeepsScreen s t ∧ KeepsKeysAndFault s t ∧ t.draws = s.draws) ∧
    (decode (0xF#4 ++ x ++ 0x18#8) = .ok (.ldStVx x) ∧
      ∃ t, CompletesTo (.ldStVx x) s t ∧ t.st = s.getV x ∧ t.dt = s.dt ∧ KeepsV [] s t ∧ t.i = s.i ∧
        KeepsStack s t ∧ KeepsMemory s t ∧ KeepsScreen s t ∧ KeepsKeysAndFault s t ∧ t.draws = s.draws)

/-! ## The host's operations -/

/-- R221: with no fault recorded a tick lowers each timer by one, independently, floors at 0, and changes nothing else. -/
def Obligations.TickLowersBothTimers : Prop :=
  ∀ s : State, s.fault = none →
    ∃ t, s.perform .tickTimers = .next (t, .ok) ∧ t.dt.toNat = s.dt.toNat - 1 ∧ t.st.toNat = s.st.toNat - 1 ∧
      t = { s with dt := t.dt, st := t.st }

/-- R231: a load is refused on a faulted machine, and for a ROM over 3584 bytes; else it writes exactly the ROM's bytes
from 0x200 on. -/
def Obligations.LoadCopiesRomVerbatim : Prop :=
  ∀ (s : State) (rom : List Byte),
    (s.fault ≠ none → s.perform (.load rom) = .next (s, .loadRefused .machineFaulted)) ∧
    (s.fault = none → 3584 < rom.length →
      s.perform (.load rom) = .next (s, .loadRefused (.romTooLarge rom.length))) ∧
    (s.fault = none → rom.length ≤ 3584 → ∃ t, s.perform (.load rom) = .next (t, .ok) ∧ t = { s with mem := t.mem } ∧
      (∀ k : Nat, k < rom.length → rom[k]? = some (t.byteAt specParams (0x200 + k))) ∧
      KeepsMemoryBut 0x200 rom.length s t)

/-- R233, R235: set_key changes the one key flag; ack_redraw clears `needs_redraw` and changes nothing else. -/
def Obligations.SetKeyAndAckRedraw : Prop :=
  ∀ (s : State) (k : Nibble) (d : Bool),
    (∃ t, s.perform (.setKey k d) = .next (t, .ok) ∧ t.key k = d ∧ (∀ j : Nibble, j ≠ k → t.key j = s.key j) ∧
      t = { s with keys := t.keys }) ∧
    (∃ t, s.perform .ackRedraw = .next (t, .ok) ∧ t = { s with needsRedraw := false })

/-- R250: `construct()` leaves the reset state, whatever the machine was (but for the model's own draw counter, of which
nothing is said), and the reset state field by field, the font at FONT_BASE for every choice of the parameters. -/
def Obligations.ConstructLeavesResetState : Prop :=
  ∀ s : State, (∃ t, s.perform .construct = .next (t, .ok) ∧ t = { State.reset with draws := t.draws }) ∧
    (∀ x : Nibble, State.reset.getV x = 0#8) ∧ State.reset.i = 0#16 ∧ State.reset.pc = 0x200#16 ∧
    State.reset.sp.val = 0 ∧ (∀ k : Fin 16, State.reset.stack[k] = 0#16) ∧ State.reset.dt = 0#8 ∧ State.reset.st = 0#8 ∧
    (∀ (p : Params) (j : Fin 80), State.reset.byteAt p (p.fontBase.toNat + j.val) = p.fontData[j]) ∧
    (∀ (p : Params) (a : Nat), (a < p.fontBase.toNat ∨ p.fontBase.toNat + 80 ≤ a) → State.reset.byteAt p a = 0#8) ∧
    (∀ (c : Fin 64) (r : Fin 32), getPixel State.reset.disp c r = false) ∧
    (∀ k : Nibble, State.reset.key k = false) ∧ State.reset.needsRedraw = false ∧ State.reset.awaitingKey = false ∧
    State.reset.fault = none

/-- R251, R253: after construct and load, the first step executes the instruction of the ROM's first two bytes, whatever the
machine was before `construct()` (its draw counter goes on: log entry 1). -/
def Obligations.LoadedProgramStartsAtItsFirstWord : Prop :=
  ∀ (s : State) (hi lo : Byte) (rest : List Byte) (i : Instr), rest.length ≤ 3582 →
    decode (wordOfBytes hi lo) = .ok i →
    ∃ t, s.construct.load specParams (hi :: lo :: rest) = .ok t ∧ t.pc = 0x200#16 ∧ step t = exec i t

/-! ## Invariants and rules of the whole machine -/

/-- The reset state meets the invariant: canonical memory, an intact reserved region, and bounded PC and return
addresses. -/
def Obligations.ResetMeetsInvariant : Prop := State.reset.Inv

/-- Every step keeps the invariant: memory stays canonical, the reserved region with the font is never mutated, PC stays at
most 0x10FE and every return address at most 0x1000. -/
def Obligations.StepKeepsInvariant : Prop := ∀ s t : State, s.Inv → step s = .next t → t.Inv

/-- Every host operation, a step among them, keeps the invariant. -/
def Obligations.HostOperationsKeepInvariant : Prop :=
  ∀ (s : State) (o : HostOp) (t : State) (reply : Reply), s.Inv → s.perform o = .next (t, reply) → t.Inv

/-- Whatever sequence of operations the host performs on a reset machine, it completes, and every byte below 0x200, the
font among them, still holds its reset contents: "never mutated" (R33, R51). -/
def Obligations.FontIsNeverMutated : Prop :=
  ∀ ops : List HostOp, ∃ t, State.reset.performAll ops = .next t ∧
    ∀ a : Nat, a < 0x200 → t.byteAt specParams a = initialByte specParams a

/-- Where each instruction leaves PC, by the table of R24; an instruction that raises a fault leaves it at pc0. In the rows
of SKP and SKNP, that V[x] is the key index and that the key decides the skip is what the spec marks as general knowledge
(R190, R191, G3; log entry 16, PRESUMED). The row of SYS also takes the ill-formed terms SYS 0x0E0 and SYS 0x0EE, which no
word decodes to and for which the jump is the model's choice (log entry 22, DESIGN CHOICE). -/
def Obligations.PcAfterEachInstruction : Prop :=
  ∀ (i : Instr) (s t : State), s.fault = none → exec i s = .next t →
    (t.fault ≠ none → t.pc = s.pc) ∧
    (t.fault = none →
      match i with
      | .seImm x kk => t.pc = (if s.getV x = kk then s.pc + 4#16 else s.pc + 2#16)
      | .sneImm x kk => t.pc = (if s.getV x ≠ kk then s.pc + 4#16 else s.pc + 2#16)
      | .seReg x y => t.pc = (if s.getV x = s.getV y then s.pc + 4#16 else s.pc + 2#16)
      | .sneReg x y => t.pc = (if s.getV x ≠ s.getV y then s.pc + 4#16 else s.pc + 2#16)
      | .skp x => ∃ k : Nibble, k.toNat = (s.getV x).toNat ∧ t.pc = (if s.key k then s.pc + 4#16 else s.pc + 2#16)
      | .sknp x => ∃ k : Nibble, k.toNat = (s.getV x).toNat ∧ t.pc = (if s.key k then s.pc + 2#16 else s.pc + 4#16)
      | .sys nnn => t.pc.toNat = nnn.toNat
      | .jp nnn => t.pc.toNat = nnn.toNat
      | .call nnn => t.pc.toNat = nnn.toNat
      | .ret => s.stack[s.sp.val - 1]? = some t.pc
      | .jpV0 nnn => t.pc.toNat = nnn.toNat + (s.getV 0x0#4).toNat
      | .ldVxK _ => t.pc = (if ∃ k : Nibble, s.key k = true then s.pc + 2#16 else s.pc)
      | _ => t.pc = s.pc + 2#16)

/-- R21: no instruction but 8xy4, 8xy5, 8xy6, 8xy7, 8xyE and Dxyn writes VF, except as an ordinary destination (x = 0xF, or
the range of Fx65). -/
def Obligations.VfIsWrittenOnlyByItsInstructions : Prop :=
  ∀ (i : Instr) (s t : State), exec i s = .next t → t.getV vf ≠ s.getV vf →
    (∃ x y, i = .addReg x y ∨ i = .subReg x y ∨ i = .shr x y ∨ i = .subn x y ∨ i = .shl x y) ∨
    (∃ x y n, i = .drw x y n) ∨
    (∃ kk y, i = .ldImm vf kk ∨ i = .addImm vf kk ∨ i = .rnd vf kk ∨ i = .ldReg vf y ∨ i = .orReg vf y ∨
      i = .andReg vf y ∨ i = .xorReg vf y) ∨
    i = .ldVxDt vf ∨ i = .ldVxK vf ∨ i = .ldVxMem vf

/-- R30, R50: only CLS and DRW change the framebuffer, only LD B and LD [I] change memory (no other instruction reaches
it with a store). -/
def Obligations.ScreenAndMemoryWriters : Prop :=
  ∀ (i : Instr) (s t : State), exec i s = .next t →
    (t.disp ≠ s.disp → i = .cls ∨ ∃ x y n, i = .drw x y n) ∧
    (t.mem ≠ s.mem → ∃ x, i = .ldB x ∨ i = .ldMemVx x)

/-- R26, R27, R28, R29, R34: only Annn, Fx1E and Fx29 write I, only CALL the stack entries, only CALL and RET SP, only
Fx15 DT, only Fx18 ST; no instruction writes the keypad image. -/
def Obligations.IndexStackTimerWriters : Prop :=
  ∀ (i : Instr) (s t : State), exec i s = .next t →
    (t.i ≠ s.i → (∃ nnn, i = .ldI nnn) ∨ ∃ x, i = .addI x ∨ i = .ldF x) ∧
    (t.stack ≠ s.stack → ∃ nnn, i = .call nnn) ∧
    (t.sp ≠ s.sp → i = .ret ∨ ∃ nnn, i = .call nnn) ∧
    (t.dt ≠ s.dt → ∃ x, i = .ldDtVx x) ∧ (t.st ≠ s.st → ∃ x, i = .ldStVx x) ∧ t.keys = s.keys

/-- R31, R173: after an instruction that raises no fault, `awaiting_key` is true exactly when it is Fx0A and no key is down,
and `needs_redraw` is true exactly when it was or the instruction is CLS or DRW: no instruction clears it. -/
def Obligations.InterfaceFlagsAfterEachInstruction : Prop :=
  ∀ (i : Instr) (s t : State), s.fault = none → exec i s = .next t → t.fault = none →
    (t.awaitingKey = true ↔ (∃ x, i = .ldVxK x) ∧ ∀ k : Nibble, s.key k = false) ∧
    (t.needsRedraw = true ↔ s.needsRedraw = true ∨ i = .cls ∨ ∃ x y n, i = .drw x y n)

/-- R29, R172, R218: no instruction's effect depends on ST, on `needs_redraw` or, but for Ex9E, ExA1 and Fx0A, on the
keypad: from states that differ only there, it does the same. -/
def Obligations.UnreadStateDoesNotMatter : Prop :=
  ∀ (i : Instr) (s t : State), exec i s = .next t →
    ((∀ x, i ≠ .ldStVx x) → ∀ b : Byte, exec i { s with st := b } = .next { t with st := b }) ∧
    ((∀ x, i ≠ .skp x ∧ i ≠ .sknp x ∧ i ≠ .ldVxK x) →
      ∀ ks : Vector Bool 16, exec i { s with keys := ks } = .next { t with keys := ks }) ∧
    ((i ≠ .cls ∧ ∀ x y n, i ≠ .drw x y n) →
      ∀ (d : Display) (b : Bool), exec i { s with disp := d, needsRedraw := b } =
        .next { t with disp := d, needsRedraw := b })

/-- R262: at a self-jump every step changes nothing but `awaiting_key`, which becomes false, and the run stays stopped. -/
def Obligations.SelfJumpStopsTheRun : Prop :=
  ∀ s : State, s.StoppedAtSelfJump →
    step s = .next { s with awaitingKey := false } ∧ ({ s with awaitingKey := false } : State).StoppedAtSelfJump
end

