-- ==== Sys2Proof/Laws/Decode.lean ====
section
/-! SUPPORT. The fields of an encoded word, format by format, and what decode can answer. -/

namespace Sys2Proof

/-- `decode` answers the word's instruction, or the word as a DecodeFailure. -/
theorem decode_cases (op : Word) :
    (∃ i, decodeOption op = some i ∧ decode op = .ok i) ∨
      (decodeOption op = none ∧ decode op = .error (.decodeFailure op)) := by
  unfold decode
  cases h : decodeOption op with
  | some i => exact .inl ⟨i, rfl, rfl⟩
  | none => exact .inr ⟨rfl, rfl⟩

theorem decode_eq_ok {op : Word} {i : Instr} : decode op = .ok i ↔ decodeOption op = some i := by
  rcases decode_cases op with ⟨j, h, hd⟩ | ⟨h, hd⟩ <;> simp [h, hd]

/-! Words and fields as numbers. -/

/-- An appended bit vector as a number: the left part counts in steps of the right part's size. -/
theorem toNat_append_eq {m n : Nat} (a : BitVec m) (b : BitVec n) : (a ++ b).toNat = a.toNat * 2 ^ n + b.toNat := by
  rw [BitVec.toNat_append, ← Nat.shiftLeft_add_eq_or_of_lt b.isLt, Nat.shiftLeft_eq]

theorem toNat_nnn (a : Nibble) (nnn : Addr12) : (a ++ nnn : Word).toNat = a.toNat * 4096 + nnn.toNat :=
  toNat_append_eq a nnn

theorem toNat_xkk (a x : Nibble) (kk : Byte) :
    (a ++ x ++ kk : Word).toNat = (a.toNat * 16 + x.toNat) * 256 + kk.toNat :=
  (toNat_append_eq (a ++ x) kk).trans (by rw [toNat_append_eq a x]; norm_num)

theorem toNat_xyn (a x y n : Nibble) :
    (a ++ x ++ y ++ n : Word).toNat = ((a.toNat * 16 + x.toNat) * 16 + y.toNat) * 16 + n.toNat :=
  (toNat_append_eq (a ++ x ++ y) n).trans (by rw [toNat_append_eq (a ++ x) y, toNat_append_eq a x]; norm_num)

/-- The opcode is `mem[PC] * 256 + mem[PC+1]` (R52, R71). -/
theorem toNat_wordOfBytes (hi lo : Byte) : (wordOfBytes hi lo).toNat = hi.toNat * 256 + lo.toNat :=
  toNat_append_eq hi lo

theorem toNat_opN1 (op : Word) : (opN1 op).toNat = op.toNat / 4096 := by
  have := op.isLt
  simp only [opN1, BitVec.extractLsb'_toNat, Nat.shiftRight_eq_div_pow]
  omega

theorem toNat_opX (op : Word) : (opX op).toNat = op.toNat / 256 % 16 := by
  simp only [opX, BitVec.extractLsb'_toNat, Nat.shiftRight_eq_div_pow]

theorem toNat_opY (op : Word) : (opY op).toNat = op.toNat / 16 % 16 := by
  simp only [opY, BitVec.extractLsb'_toNat, Nat.shiftRight_eq_div_pow]

theorem toNat_opN (op : Word) : (opN op).toNat = op.toNat % 16 := by
  simp [opN, BitVec.extractLsb'_toNat]

theorem toNat_opKk (op : Word) : (opKk op).toNat = op.toNat % 256 := by
  simp [opKk, BitVec.extractLsb'_toNat]

theorem toNat_opNnn (op : Word) : (opNnn op).toNat = op.toNat % 4096 := by
  simp [opNnn, BitVec.extractLsb'_toNat]

/-! A word is made of its fields. -/

theorem word_eq_nnn (op : Word) : op = opN1 op ++ opNnn op := by
  apply BitVec.eq_of_toNat_eq
  rw [toNat_nnn, toNat_opN1, toNat_opNnn]
  omega

theorem word_eq_xkk (op : Word) : op = opN1 op ++ opX op ++ opKk op := by
  apply BitVec.eq_of_toNat_eq
  rw [toNat_xkk, toNat_opN1, toNat_opX, toNat_opKk]
  omega

theorem word_eq_xyn (op : Word) : op = opN1 op ++ opX op ++ opY op ++ opN op := by
  apply BitVec.eq_of_toNat_eq
  rw [toNat_xyn, toNat_opN1, toNat_opX, toNat_opY, toNat_opN]
  omega

/-! The fields of an encoded word. -/

section
variable (a : Nibble) (nnn : Addr12)

@[simp] theorem opN1_nnn : opN1 (a ++ nnn) = a := by
  apply BitVec.eq_of_toNat_eq
  rw [toNat_opN1, toNat_nnn]
  omega

@[simp] theorem opNnn_nnn : opNnn (a ++ nnn) = nnn := by
  apply BitVec.eq_of_toNat_eq
  rw [toNat_opNnn, toNat_nnn]
  omega
end

section
variable (a x : Nibble) (kk : Byte)

@[simp] theorem opN1_xkk : opN1 (a ++ x ++ kk) = a := by
  apply BitVec.eq_of_toNat_eq
  rw [toNat_opN1, toNat_xkk]
  omega

@[simp] theorem opX_xkk : opX (a ++ x ++ kk) = x := by
  apply BitVec.eq_of_toNat_eq
  rw [toNat_opX, toNat_xkk]
  omega

@[simp] theorem opKk_xkk : opKk (a ++ x ++ kk) = kk := by
  apply BitVec.eq_of_toNat_eq
  rw [toNat_opKk, toNat_xkk]
  omega
end

section
variable (a x y n : Nibble)

@[simp] theorem opN1_xyn : opN1 (a ++ x ++ y ++ n) = a := by
  apply BitVec.eq_of_toNat_eq
  rw [toNat_opN1, toNat_xyn]
  omega

@[simp] theorem opX_xyn : opX (a ++ x ++ y ++ n) = x := by
  apply BitVec.eq_of_toNat_eq
  rw [toNat_opX, toNat_xyn]
  omega

@[simp] theorem opY_xyn : opY (a ++ x ++ y ++ n) = y := by
  apply BitVec.eq_of_toNat_eq
  rw [toNat_opY, toNat_xyn]
  omega

@[simp] theorem opN_xyn : opN (a ++ x ++ y ++ n) = n := by
  apply BitVec.eq_of_toNat_eq
  rw [toNat_opN, toNat_xyn]
  omega
end

/-! The fields of a literal word. -/

theorem opN1_ofNat (k : Nat) : opN1 (BitVec.ofNat 16 k) = BitVec.ofNat 4 (k / 4096) := by
  apply BitVec.eq_of_toNat_eq
  rw [toNat_opN1]
  simp only [BitVec.toNat_ofNat]
  omega

theorem opX_ofNat (k : Nat) : opX (BitVec.ofNat 16 k) = BitVec.ofNat 4 (k / 256) := by
  apply BitVec.eq_of_toNat_eq
  rw [toNat_opX]
  simp only [BitVec.toNat_ofNat]
  omega

theorem opY_ofNat (k : Nat) : opY (BitVec.ofNat 16 k) = BitVec.ofNat 4 (k / 16) := by
  apply BitVec.eq_of_toNat_eq
  rw [toNat_opY]
  simp only [BitVec.toNat_ofNat]
  omega

theorem opN_ofNat (k : Nat) : opN (BitVec.ofNat 16 k) = BitVec.ofNat 4 k := by
  apply BitVec.eq_of_toNat_eq
  rw [toNat_opN]
  simp only [BitVec.toNat_ofNat]
  omega

theorem opNnn_ofNat (k : Nat) : opNnn (BitVec.ofNat 16 k) = BitVec.ofNat 12 k := by
  apply BitVec.eq_of_toNat_eq
  rw [toNat_opNnn]
  simp only [BitVec.toNat_ofNat]
  omega

theorem nibble_and_15 (x : Nibble) : x &&& 15#4 = x := BitVec.and_allOnes

/-! A word against a mask and a pattern, nibble by nibble (R80). -/

theorem opY_xkk (a x : Nibble) (kk : Byte) : opY (a ++ x ++ kk) = kk.extractLsb' 4 4 := by
  apply BitVec.eq_of_toNat_eq
  rw [toNat_opY, toNat_xkk]
  simp only [BitVec.extractLsb'_toNat, Nat.shiftRight_eq_div_pow]
  omega

theorem opN_xkk (a x : Nibble) (kk : Byte) : opN (a ++ x ++ kk) = kk.extractLsb' 0 4 := by
  apply BitVec.eq_of_toNat_eq
  rw [toNat_opN, toNat_xkk]
  simp only [BitVec.extractLsb'_toNat, Nat.shiftRight_eq_div_pow]
  omega

/-- Two words are equal when their four nibbles are. -/
theorem word_ext_iff (v w : Word) :
    v = w ↔ opN1 v = opN1 w ∧ opX v = opX w ∧ opY v = opY w ∧ opN v = opN w := by
  constructor
  · rintro rfl
    exact ⟨rfl, rfl, rfl, rfl⟩
  · rintro ⟨h1, h2, h3, h4⟩
    rw [word_eq_xyn v, word_eq_xyn w, h1, h2, h3, h4]

/-- A word meets a mask and a pattern when each nibble does. -/
theorem and_mask_iff (op m w : Word) :
    op &&& m = w ↔ opN1 op &&& opN1 m = opN1 w ∧ opX op &&& opX m = opX w ∧ opY op &&& opY m = opY w ∧
      opN op &&& opN m = opN w := by
  rw [word_ext_iff]
  simp only [opN1, opX, opY, opN, BitVec.extractLsb'_and]

/-- The bytes a word lays in memory make the word again. -/
theorem wordOfBytes_bytesOfWord (op : Word) : wordOfBytes (op.extractLsb' 8 8) (op.extractLsb' 0 8) = op := by
  apply BitVec.eq_of_toNat_eq
  have := op.isLt
  rw [toNat_wordOfBytes]
  simp only [BitVec.extractLsb'_toNat, Nat.shiftRight_eq_div_pow]
  omega

end Sys2Proof
end

