-- ==== Sys2Proof/Laws/Memory.lean ====
section
/-! SUPPORT. The laws of memory as a canonical list of cells: a read after a write, a write leaves every other address
alone, and every operation keeps the canonical form. -/

namespace Sys2Proof.Machine

variable (p : Params)

theorem memLookup_memErase_self (m : Memory) (a : Nat) : memLookup p (memErase m a) a = initialByte p a := by
  induction m with
  | nil => rfl
  | cons c m ih =>
    obtain ⟨k, b⟩ := c
    by_cases h : k = a <;> simp [memErase, memLookup, h, ih]

theorem memLookup_memErase_other (m : Memory) {a a' : Nat} (h : a' ≠ a) :
    memLookup p (memErase m a) a' = memLookup p m a' := by
  induction m with
  | nil => rfl
  | cons c m ih =>
    obtain ⟨k, b⟩ := c
    by_cases hk : k = a
    · subst hk
      simp [memErase, memLookup, Ne.symm h, ih]
    · simp [memErase, memLookup, hk, ih]

theorem memLookup_memInsert (m : Memory) (a : Nat) (v : Byte) (h : ∀ c ∈ m, c.1 ≠ a) (a' : Nat) :
    memLookup p (memInsert m a v) a' = if a' = a then v else memLookup p m a' := by
  induction m with
  | nil => simp [memInsert, memLookup, eq_comm]
  | cons c m ih =>
    obtain ⟨k, b⟩ := c
    have hk : k ≠ a := h (k, b) (by simp)
    have ih' := ih (fun c hc => h c (by simp [hc]))
    by_cases hlt : a < k
    · simp [memInsert, memLookup, hlt, eq_comm]
    · by_cases he : k = a'
      · subst he
        simp [memInsert, memLookup, hlt, hk]
      · simp [memInsert, memLookup, hlt, he, ih']

theorem memErase_ne (m : Memory) (a : Nat) : ∀ c ∈ memErase m a, c.1 ≠ a := by
  induction m with
  | nil => simp [memErase]
  | cons c m ih =>
    obtain ⟨k, b⟩ := c
    by_cases h : k = a
    · simpa [memErase, h] using ih
    · simpa [memErase, h] using ih

/-- A read after a store: the byte stored there, and every other address as before. -/
theorem memLookup_memStore (m : Memory) (a : Nat) (v : Byte) (a' : Nat) :
    memLookup p (memStore p m a v) a' = if a' = a then v else memLookup p m a' := by
  unfold memStore
  split
  · rename_i hv
    by_cases h : a' = a
    · subst h
      simp [memLookup_memErase_self, hv]
    · simp [h, memLookup_memErase_other p m h]
  · rw [memLookup_memInsert p _ a v (memErase_ne m a)]
    by_cases h : a' = a
    · simp [h]
    · simp [h, memLookup_memErase_other p m h]

@[simp] theorem memLookup_memStore_self (m : Memory) (a : Nat) (v : Byte) :
    memLookup p (memStore p m a v) a = v := by simp [memLookup_memStore]

theorem memLookup_memStore_other (m : Memory) {a a' : Nat} (v : Byte) (h : a' ≠ a) :
    memLookup p (memStore p m a v) a' = memLookup p m a' := by simp [memLookup_memStore, h]

/-- A read after several bytes were stored: the byte of that address, if it is one of theirs. -/
theorem memLookup_memStoreAll (bs : List Byte) (m : Memory) (a a' : Nat) :
    memLookup p (memStoreAll p m a bs) a' =
      if a ≤ a' then (bs[a' - a]?).getD (memLookup p m a') else memLookup p m a' := by
  induction bs generalizing m a with
  | nil => simp [memStoreAll]
  | cons b bs ih =>
    rw [memStoreAll, ih, memLookup_memStore]
    rcases Nat.lt_trichotomy a a' with h | h | h
    · have h1 : a' ≠ a := by omega
      have h2 : a' - a = (a' - (a + 1)) + 1 := by omega
      have h3 : a + 1 ≤ a' := h
      have h4 : a ≤ a' := Nat.le_of_lt h
      rw [if_pos h3, if_pos h4, if_neg h1, h2, List.getElem?_cons_succ]
    · subst h
      simp
    · have h1 : a' ≠ a := by omega
      simp [h1, show ¬ a + 1 ≤ a' by omega, show ¬ a ≤ a' by omega]

theorem memLookup_memStoreAll_outside (bs : List Byte) (m : Memory) {a a' : Nat}
    (h : a' < a ∨ a + bs.length ≤ a') : memLookup p (memStoreAll p m a bs) a' = memLookup p m a' := by
  rw [memLookup_memStoreAll]
  split
  · rw [List.getElem?_eq_none (by omega)]
    rfl
  · rfl

/-! The canonical form. -/

theorem memWfFrom_mono {lo lo' : Nat} {m : Memory} (h : memWfFrom p lo m = true) (hle : lo' ≤ lo) :
    memWfFrom p lo' m = true := by
  cases m with
  | nil => rfl
  | cons c m =>
    obtain ⟨k, b⟩ := c
    simp only [memWfFrom, Bool.and_eq_true, decide_eq_true_eq] at h ⊢
    exact ⟨⟨⟨by omega, h.1.1.2⟩, h.1.2⟩, h.2⟩

theorem memErase_wf {lo : Nat} {m : Memory} (a : Nat) (h : memWfFrom p lo m = true) :
    memWfFrom p lo (memErase m a) = true := by
  induction m generalizing lo with
  | nil => rfl
  | cons c m ih =>
    obtain ⟨k, b⟩ := c
    simp only [memWfFrom, Bool.and_eq_true, decide_eq_true_eq] at h
    by_cases hk : k = a
    · simpa [memErase, hk] using memWfFrom_mono p (ih h.2) (by omega)
    · simp only [memErase, hk, if_false, memWfFrom, Bool.and_eq_true, decide_eq_true_eq]
      exact ⟨h.1, ih h.2⟩

theorem memInsert_wf {lo : Nat} {m : Memory} {a : Nat} {v : Byte} (h : memWfFrom p lo m = true)
    (hne : ∀ c ∈ m, c.1 ≠ a) (hlo : lo ≤ a) (ha : a < memSize) (hv : v ≠ initialByte p a) :
    memWfFrom p lo (memInsert m a v) = true := by
  induction m generalizing lo with
  | nil => simp [memInsert, memWfFrom, hlo, ha, hv]
  | cons c m ih =>
    obtain ⟨k, b⟩ := c
    have hk : k ≠ a := hne (k, b) (by simp)
    simp only [memWfFrom, Bool.and_eq_true, decide_eq_true_eq] at h
    by_cases hlt : a < k
    · simp only [memInsert, hlt, if_true, memWfFrom, Bool.and_eq_true, decide_eq_true_eq]
      exact ⟨⟨⟨hlo, ha⟩, by simp [hv]⟩, ⟨⟨by omega, h.1.1.2⟩, h.1.2⟩, h.2⟩
    · simp only [memInsert, hlt, if_false, memWfFrom, Bool.and_eq_true, decide_eq_true_eq]
      exact ⟨h.1, ih h.2 (fun c hc => hne c (by simp [hc])) (by omega)⟩

/-- A store inside memory keeps the canonical form. -/
theorem memStore_wf {m : Memory} {a : Nat} (v : Byte) (h : m.wf p = true) (ha : a < memSize) :
    (memStore p m a v : Memory).wf p = true := by
  unfold memStore Memory.wf
  split
  · exact memErase_wf p a h
  · exact memInsert_wf p (memErase_wf p a h) (memErase_ne m a) (Nat.zero_le a) ha ‹_›

/-- Several stores inside memory keep the canonical form. -/
theorem memStoreAll_wf {m : Memory} {a : Nat} (bs : List Byte) (h : m.wf p = true) (ha : a + bs.length ≤ memSize) :
    (memStoreAll p m a bs : Memory).wf p = true := by
  induction bs generalizing m a with
  | nil => exact h
  | cons b bs ih =>
    simp only [List.length_cons] at ha
    exact ih (memStore_wf p b h (by omega)) (by omega)

/-- Reset memory, which lists nothing, is canonical. -/
theorem reset_mem_wf : State.reset.mem.wf p = true := rfl

end Sys2Proof.Machine
end

