-- ==== Sys2Proof/Laws/State.lean ====
section
/-! SUPPORT. What every update of the state does to every field, each true by `rfl` and tagged for `simp`, so that no
later proof unfolds a record update. -/

namespace Sys2Proof.Machine.State

variable (s : State)

@[simp] theorem setV_v (x : Nibble) (b : Byte) : (s.setV x b).v = s.v.set x.toNat b x.isLt := rfl
@[simp] theorem setV_i (x : Nibble) (b : Byte) : (s.setV x b).i = s.i := rfl
@[simp] theorem setV_pc (x : Nibble) (b : Byte) : (s.setV x b).pc = s.pc := rfl
@[simp] theorem setV_stack (x : Nibble) (b : Byte) : (s.setV x b).stack = s.stack := rfl
@[simp] theorem setV_sp (x : Nibble) (b : Byte) : (s.setV x b).sp = s.sp := rfl
@[simp] theorem setV_dt (x : Nibble) (b : Byte) : (s.setV x b).dt = s.dt := rfl
@[simp] theorem setV_st (x : Nibble) (b : Byte) : (s.setV x b).st = s.st := rfl
@[simp] theorem setV_mem (x : Nibble) (b : Byte) : (s.setV x b).mem = s.mem := rfl
@[simp] theorem setV_disp (x : Nibble) (b : Byte) : (s.setV x b).disp = s.disp := rfl
@[simp] theorem setV_keys (x : Nibble) (b : Byte) : (s.setV x b).keys = s.keys := rfl
@[simp] theorem setV_needsRedraw (x : Nibble) (b : Byte) : (s.setV x b).needsRedraw = s.needsRedraw := rfl
@[simp] theorem setV_awaitingKey (x : Nibble) (b : Byte) : (s.setV x b).awaitingKey = s.awaitingKey := rfl
@[simp] theorem setV_fault (x : Nibble) (b : Byte) : (s.setV x b).fault = s.fault := rfl
@[simp] theorem setV_draws (x : Nibble) (b : Byte) : (s.setV x b).draws = s.draws := rfl

@[simp] theorem setVs_i (bs : List Byte) : (s.setVs bs).i = s.i := rfl
@[simp] theorem setVs_pc (bs : List Byte) : (s.setVs bs).pc = s.pc := rfl
@[simp] theorem setVs_stack (bs : List Byte) : (s.setVs bs).stack = s.stack := rfl
@[simp] theorem setVs_sp (bs : List Byte) : (s.setVs bs).sp = s.sp := rfl
@[simp] theorem setVs_dt (bs : List Byte) : (s.setVs bs).dt = s.dt := rfl
@[simp] theorem setVs_st (bs : List Byte) : (s.setVs bs).st = s.st := rfl
@[simp] theorem setVs_mem (bs : List Byte) : (s.setVs bs).mem = s.mem := rfl
@[simp] theorem setVs_disp (bs : List Byte) : (s.setVs bs).disp = s.disp := rfl
@[simp] theorem setVs_keys (bs : List Byte) : (s.setVs bs).keys = s.keys := rfl
@[simp] theorem setVs_needsRedraw (bs : List Byte) : (s.setVs bs).needsRedraw = s.needsRedraw := rfl
@[simp] theorem setVs_awaitingKey (bs : List Byte) : (s.setVs bs).awaitingKey = s.awaitingKey := rfl
@[simp] theorem setVs_fault (bs : List Byte) : (s.setVs bs).fault = s.fault := rfl
@[simp] theorem setVs_draws (bs : List Byte) : (s.setVs bs).draws = s.draws := rfl

@[simp] theorem setPc_v (w : Word) : (s.setPc w).v = s.v := rfl
@[simp] theorem setPc_i (w : Word) : (s.setPc w).i = s.i := rfl
@[simp] theorem setPc_pc (w : Word) : (s.setPc w).pc = w := rfl
@[simp] theorem setPc_stack (w : Word) : (s.setPc w).stack = s.stack := rfl
@[simp] theorem setPc_sp (w : Word) : (s.setPc w).sp = s.sp := rfl
@[simp] theorem setPc_dt (w : Word) : (s.setPc w).dt = s.dt := rfl
@[simp] theorem setPc_st (w : Word) : (s.setPc w).st = s.st := rfl
@[simp] theorem setPc_mem (w : Word) : (s.setPc w).mem = s.mem := rfl
@[simp] theorem setPc_disp (w : Word) : (s.setPc w).disp = s.disp := rfl
@[simp] theorem setPc_keys (w : Word) : (s.setPc w).keys = s.keys := rfl
@[simp] theorem setPc_needsRedraw (w : Word) : (s.setPc w).needsRedraw = s.needsRedraw := rfl
@[simp] theorem setPc_awaitingKey (w : Word) : (s.setPc w).awaitingKey = s.awaitingKey := rfl
@[simp] theorem setPc_fault (w : Word) : (s.setPc w).fault = s.fault := rfl
@[simp] theorem setPc_draws (w : Word) : (s.setPc w).draws = s.draws := rfl

@[simp] theorem advance_v : s.advance.v = s.v := rfl
@[simp] theorem advance_i : s.advance.i = s.i := rfl
@[simp] theorem advance_pc : s.advance.pc = s.pc + 2#16 := rfl
@[simp] theorem advance_stack : s.advance.stack = s.stack := rfl
@[simp] theorem advance_sp : s.advance.sp = s.sp := rfl
@[simp] theorem advance_dt : s.advance.dt = s.dt := rfl
@[simp] theorem advance_st : s.advance.st = s.st := rfl
@[simp] theorem advance_mem : s.advance.mem = s.mem := rfl
@[simp] theorem advance_disp : s.advance.disp = s.disp := rfl
@[simp] theorem advance_keys : s.advance.keys = s.keys := rfl
@[simp] theorem advance_needsRedraw : s.advance.needsRedraw = s.needsRedraw := rfl
@[simp] theorem advance_awaitingKey : s.advance.awaitingKey = false := rfl
@[simp] theorem advance_fault : s.advance.fault = s.fault := rfl
@[simp] theorem advance_draws : s.advance.draws = s.draws := rfl

@[simp] theorem takeFault_v (k : Fault) (o : Option Word) : (s.takeFault k o).v = s.v := rfl
@[simp] theorem takeFault_i (k : Fault) (o : Option Word) : (s.takeFault k o).i = s.i := rfl
@[simp] theorem takeFault_pc (k : Fault) (o : Option Word) : (s.takeFault k o).pc = s.pc := rfl
@[simp] theorem takeFault_stack (k : Fault) (o : Option Word) : (s.takeFault k o).stack = s.stack := rfl
@[simp] theorem takeFault_sp (k : Fault) (o : Option Word) : (s.takeFault k o).sp = s.sp := rfl
@[simp] theorem takeFault_dt (k : Fault) (o : Option Word) : (s.takeFault k o).dt = s.dt := rfl
@[simp] theorem takeFault_st (k : Fault) (o : Option Word) : (s.takeFault k o).st = s.st := rfl
@[simp] theorem takeFault_mem (k : Fault) (o : Option Word) : (s.takeFault k o).mem = s.mem := rfl
@[simp] theorem takeFault_disp (k : Fault) (o : Option Word) : (s.takeFault k o).disp = s.disp := rfl
@[simp] theorem takeFault_keys (k : Fault) (o : Option Word) : (s.takeFault k o).keys = s.keys := rfl
@[simp] theorem takeFault_needsRedraw (k : Fault) (o : Option Word) : (s.takeFault k o).needsRedraw = s.needsRedraw := rfl
@[simp] theorem takeFault_awaitingKey (k : Fault) (o : Option Word) : (s.takeFault k o).awaitingKey = s.awaitingKey := rfl
@[simp] theorem takeFault_fault (k : Fault) (o : Option Word) : (s.takeFault k o).fault = some { kind := k, pc0 := s.pc, opcode := o } := rfl
@[simp] theorem takeFault_draws (k : Fault) (o : Option Word) : (s.takeFault k o).draws = s.draws := rfl

@[simp] theorem setVFlag_i (x : Nibble) (b : Byte) (f : Bool) : (s.setVFlag x b f).i = s.i := rfl
@[simp] theorem setVFlag_pc (x : Nibble) (b : Byte) (f : Bool) : (s.setVFlag x b f).pc = s.pc := rfl
@[simp] theorem setVFlag_stack (x : Nibble) (b : Byte) (f : Bool) : (s.setVFlag x b f).stack = s.stack := rfl
@[simp] theorem setVFlag_sp (x : Nibble) (b : Byte) (f : Bool) : (s.setVFlag x b f).sp = s.sp := rfl
@[simp] theorem setVFlag_dt (x : Nibble) (b : Byte) (f : Bool) : (s.setVFlag x b f).dt = s.dt := rfl
@[simp] theorem setVFlag_st (x : Nibble) (b : Byte) (f : Bool) : (s.setVFlag x b f).st = s.st := rfl
@[simp] theorem setVFlag_mem (x : Nibble) (b : Byte) (f : Bool) : (s.setVFlag x b f).mem = s.mem := rfl
@[simp] theorem setVFlag_disp (x : Nibble) (b : Byte) (f : Bool) : (s.setVFlag x b f).disp = s.disp := rfl
@[simp] theorem setVFlag_keys (x : Nibble) (b : Byte) (f : Bool) : (s.setVFlag x b f).keys = s.keys := rfl
@[simp] theorem setVFlag_needsRedraw (x : Nibble) (b : Byte) (f : Bool) : (s.setVFlag x b f).needsRedraw = s.needsRedraw := rfl
@[simp] theorem setVFlag_awaitingKey (x : Nibble) (b : Byte) (f : Bool) : (s.setVFlag x b f).awaitingKey = s.awaitingKey := rfl
@[simp] theorem setVFlag_fault (x : Nibble) (b : Byte) (f : Bool) : (s.setVFlag x b f).fault = s.fault := rfl
@[simp] theorem setVFlag_draws (x : Nibble) (b : Byte) (f : Bool) : (s.setVFlag x b f).draws = s.draws := rfl

@[simp] theorem setKey_v (k : Nibble) (d : Bool) : (s.setKey k d).v = s.v := rfl
@[simp] theorem setKey_i (k : Nibble) (d : Bool) : (s.setKey k d).i = s.i := rfl
@[simp] theorem setKey_pc (k : Nibble) (d : Bool) : (s.setKey k d).pc = s.pc := rfl
@[simp] theorem setKey_stack (k : Nibble) (d : Bool) : (s.setKey k d).stack = s.stack := rfl
@[simp] theorem setKey_sp (k : Nibble) (d : Bool) : (s.setKey k d).sp = s.sp := rfl
@[simp] theorem setKey_dt (k : Nibble) (d : Bool) : (s.setKey k d).dt = s.dt := rfl
@[simp] theorem setKey_st (k : Nibble) (d : Bool) : (s.setKey k d).st = s.st := rfl
@[simp] theorem setKey_mem (k : Nibble) (d : Bool) : (s.setKey k d).mem = s.mem := rfl
@[simp] theorem setKey_disp (k : Nibble) (d : Bool) : (s.setKey k d).disp = s.disp := rfl
@[simp] theorem setKey_keys (k : Nibble) (d : Bool) : (s.setKey k d).keys = s.keys.set k.toNat d k.isLt := rfl
@[simp] theorem setKey_needsRedraw (k : Nibble) (d : Bool) : (s.setKey k d).needsRedraw = s.needsRedraw := rfl
@[simp] theorem setKey_awaitingKey (k : Nibble) (d : Bool) : (s.setKey k d).awaitingKey = s.awaitingKey := rfl
@[simp] theorem setKey_fault (k : Nibble) (d : Bool) : (s.setKey k d).fault = s.fault := rfl
@[simp] theorem setKey_draws (k : Nibble) (d : Bool) : (s.setKey k d).draws = s.draws := rfl

@[simp] theorem ackRedraw_v : s.ackRedraw.v = s.v := rfl
@[simp] theorem ackRedraw_i : s.ackRedraw.i = s.i := rfl
@[simp] theorem ackRedraw_pc : s.ackRedraw.pc = s.pc := rfl
@[simp] theorem ackRedraw_stack : s.ackRedraw.stack = s.stack := rfl
@[simp] theorem ackRedraw_sp : s.ackRedraw.sp = s.sp := rfl
@[simp] theorem ackRedraw_dt : s.ackRedraw.dt = s.dt := rfl
@[simp] theorem ackRedraw_st : s.ackRedraw.st = s.st := rfl
@[simp] theorem ackRedraw_mem : s.ackRedraw.mem = s.mem := rfl
@[simp] theorem ackRedraw_disp : s.ackRedraw.disp = s.disp := rfl
@[simp] theorem ackRedraw_keys : s.ackRedraw.keys = s.keys := rfl
@[simp] theorem ackRedraw_needsRedraw : s.ackRedraw.needsRedraw = false := rfl
@[simp] theorem ackRedraw_awaitingKey : s.ackRedraw.awaitingKey = s.awaitingKey := rfl
@[simp] theorem ackRedraw_fault : s.ackRedraw.fault = s.fault := rfl
@[simp] theorem ackRedraw_draws : s.ackRedraw.draws = s.draws := rfl

@[simp] theorem skipIf_v (c : Bool) : (s.skipIf c).v = s.v := by cases c <;> rfl
@[simp] theorem skipIf_i (c : Bool) : (s.skipIf c).i = s.i := by cases c <;> rfl
@[simp] theorem skipIf_stack (c : Bool) : (s.skipIf c).stack = s.stack := by cases c <;> rfl
@[simp] theorem skipIf_sp (c : Bool) : (s.skipIf c).sp = s.sp := by cases c <;> rfl
@[simp] theorem skipIf_dt (c : Bool) : (s.skipIf c).dt = s.dt := by cases c <;> rfl
@[simp] theorem skipIf_st (c : Bool) : (s.skipIf c).st = s.st := by cases c <;> rfl
@[simp] theorem skipIf_mem (c : Bool) : (s.skipIf c).mem = s.mem := by cases c <;> rfl
@[simp] theorem skipIf_disp (c : Bool) : (s.skipIf c).disp = s.disp := by cases c <;> rfl
@[simp] theorem skipIf_keys (c : Bool) : (s.skipIf c).keys = s.keys := by cases c <;> rfl
@[simp] theorem skipIf_needsRedraw (c : Bool) : (s.skipIf c).needsRedraw = s.needsRedraw := by cases c <;> rfl
@[simp] theorem skipIf_awaitingKey (c : Bool) : (s.skipIf c).awaitingKey = s.awaitingKey := by cases c <;> rfl
@[simp] theorem skipIf_fault (c : Bool) : (s.skipIf c).fault = s.fault := by cases c <;> rfl
@[simp] theorem skipIf_draws (c : Bool) : (s.skipIf c).draws = s.draws := by cases c <;> rfl
@[simp] theorem skipIf_pc (c : Bool) : (s.skipIf c).pc = if c then s.pc + 2#16 else s.pc := by cases c <;> rfl

/-! Registers: a read after a write, through every update. -/

theorem getV_setV (x y : Nibble) (b : Byte) : (s.setV x b).getV y = if x = y then b else s.getV y := by
  simp only [getV, setV, Vector.getElem_set, BitVec.toNat_inj]

@[simp] theorem getV_setV_self (x : Nibble) (b : Byte) : (s.setV x b).getV x = b := by simp [getV_setV]

theorem getV_setV_of_ne {x y : Nibble} (b : Byte) (h : x ≠ y) : (s.setV x b).getV y = s.getV y := by
  simp [getV_setV, h]

@[simp] theorem getV_setVFlag_vf (x : Nibble) (b : Byte) (f : Bool) : (s.setVFlag x b f).getV vf = flagByte f := by
  simp [setVFlag]

theorem getV_setVFlag_dest {x : Nibble} (b : Byte) (f : Bool) (h : x ≠ vf) : (s.setVFlag x b f).getV x = b := by
  simp [setVFlag, getV_setV, Ne.symm h]

theorem getV_setVFlag_other {x y : Nibble} (b : Byte) (f : Bool) (hx : y ≠ x) (hf : y ≠ vf) :
    (s.setVFlag x b f).getV y = s.getV y := by
  simp [setVFlag, getV_setV, Ne.symm hx, Ne.symm hf]

theorem getV_setVs (bs : List Byte) (y : Nibble) : (s.setVs bs).getV y = (bs[y.toNat]?).getD (s.getV y) := by
  simp [setVs, getV]

@[simp] theorem getV_advance (y : Nibble) : s.advance.getV y = s.getV y := rfl

@[simp] theorem getV_setPc (w : Word) (y : Nibble) : (s.setPc w).getV y = s.getV y := rfl

@[simp] theorem getV_skipIf (c : Bool) (y : Nibble) : (s.skipIf c).getV y = s.getV y := by cases c <;> rfl

@[simp] theorem getV_takeFault (k : Fault) (o : Option Word) (y : Nibble) : (s.takeFault k o).getV y = s.getV y := rfl

end Sys2Proof.Machine.State
end

