-- ==== Sys2Proof/Laws/Ops.lean ====
section
/-! SUPPORT. One specification lemma per shared operation: everything it can answer. -/

namespace Sys2Proof.Machine

variable {p : Params} {s t : State}

/-! Taking a fault and ending an instruction. -/

/-- An instruction that may raise always answers a next state: its own, or the fault taken. -/
theorem commit_cases {i : Instr} {r : Except Fault State} (h : commit i s r = .next t) :
    r = .ok t ∨ ∃ k, r = .error k ∧ t = s.takeFault k (some (encode i)) := by
  cases r with
  | ok u => exact .inl (by simpa [commit] using h)
  | error k => exact .inr ⟨k, rfl, by simpa [commit] using h.symm⟩

@[simp] theorem commit_ok (i : Instr) (s t : State) : commit i s (.ok t) = .next t := rfl

@[simp] theorem commit_error (i : Instr) (s : State) (k : Fault) :
    commit i s (.error k) = .next (s.takeFault k (some (encode i))) := rfl

/-! The stack. -/

theorem push_lt (w : Word) (h : s.sp.val < 16) :
    s.push w = .ok { s with stack := s.stack.set s.sp.val w h, sp := ⟨s.sp.val + 1, Nat.succ_lt_succ h⟩ } := by
  simp [State.push, h]

theorem push_full (w : Word) (h : s.sp.val = 16) : s.push w = .error .stackOverflow := by
  simp [State.push, h]

theorem popPc_empty (h : s.sp.val = 0) : s.popPc = .error .stackUnderflow := by
  simp [State.popPc, h]

theorem popPc_pos (h : s.sp.val ≠ 0) :
    s.popPc = .ok { s with
      sp := ⟨s.sp.val - 1, by have := s.sp.isLt; omega⟩
      pc := s.stack[s.sp.val - 1]'(by have := s.sp.isLt; omega) } := by
  simp [State.popPc, h]

/-! The memory primitives. -/

theorem memRead_ok {a : Nat} (h : a < memSize) : s.memRead p a = .ok (s.byteAt p a) := by
  simp [State.memRead, Nat.not_le.mpr h]

theorem memRead_error {a : Nat} (h : memSize ≤ a) : s.memRead p a = .error (.addressOutOfRange a) := by
  simp [State.memRead, h]

/-- A checked read of several bytes inside memory answers them in order. -/
theorem memReads_ok {a n : Nat} (h : a + n ≤ memSize) :
    s.memReads p a n = .ok ((List.range n).map (fun k => s.byteAt p (a + k))) := by
  induction n generalizing a with
  | zero => rfl
  | succ n ih =>
    rw [State.memReads, memRead_ok (by omega), ih (by omega), List.range_succ_eq_map]
    simp [Nat.add_assoc, Nat.add_comm 1, Function.comp_def]

/-- A checked read that runs past memory reports the lowest address past it. -/
theorem memReads_error {a n : Nat} (hn : n ≠ 0) (h : memSize < a + n) :
    s.memReads p a n = .error (.addressOutOfRange (max a memSize)) := by
  induction n generalizing a with
  | zero => exact absurd rfl hn
  | succ n ih =>
    rw [State.memReads]
    by_cases ha : memSize ≤ a
    · rw [memRead_error ha, Nat.max_eq_left ha]
    · rw [memRead_ok (by omega), ih (by omega) (by omega)]
      simp only [Except.error.injEq, Fault.addressOutOfRange.injEq]
      omega

/-- Reading no byte never faults. -/
@[simp] theorem memReads_zero (a : Nat) : s.memReads p a 0 = .ok [] := rfl

/-- Everything a checked write can answer. -/
theorem memWrite_cases {a : Nat} {v : Byte} (h : s.memWrite p a v = .ok t) :
    a < memSize ∧ (programBase ≤ a ∨ p.lowWritePolicy ≠ .fault) ∧ t = { s with mem := memStore p s.mem a v } := by
  unfold State.memWrite at h
  split at h
  · cases h
  · split at h
    · cases h
    · rename_i h1 h2
      refine ⟨by omega, ?_, by simpa using h.symm⟩
      by_cases hp : p.lowWritePolicy = .fault
      · left
        have : ¬ a < programBase := fun hl => h2 ⟨hl, hp⟩
        omega
      · exact .inr hp

theorem memWrite_ok {a : Nat} (v : Byte) (h : a < memSize) (hp : programBase ≤ a ∨ p.lowWritePolicy ≠ .fault) :
    s.memWrite p a v = .ok { s with mem := memStore p s.mem a v } := by
  have h2 : ¬ (a < programBase ∧ p.lowWritePolicy = .fault) := by
    rintro ⟨hl, hf⟩
    rcases hp with hp | hp
    · omega
    · exact hp hf
  simp [State.memWrite, Nat.not_le.mpr h, h2]

theorem memWrite_reserved {a : Nat} (v : Byte) (h : a < programBase) (hp : p.lowWritePolicy = .fault) :
    s.memWrite p a v = .error (.reservedWrite a) := by
  have h1 : ¬ memSize ≤ a := by unfold programBase at h; unfold memSize; omega
  simp [State.memWrite, h1, h, hp]

theorem memWrite_outside {a : Nat} (v : Byte) (h : memSize ≤ a) :
    s.memWrite p a v = .error (.addressOutOfRange a) := by
  simp [State.memWrite, h]

/-- If checked writes complete, they wrote every byte, inside memory and not below 0x200 under the fault policy. -/
theorem memWrites_cases {a : Nat} {bs : List Byte} (h : s.memWrites p a bs = .ok t) :
    t = { s with mem := memStoreAll p s.mem a bs } ∧
      (bs ≠ [] → a + bs.length ≤ memSize ∧ (programBase ≤ a ∨ p.lowWritePolicy ≠ .fault)) := by
  induction bs generalizing a s with
  | nil => exact ⟨by simpa [State.memWrites, memStoreAll] using h.symm, by simp⟩
  | cons b bs ih =>
    rw [State.memWrites] at h
    split at h
    · cases h
    · rename_i u hu
      obtain ⟨ha, hp, rfl⟩ := memWrite_cases hu
      obtain ⟨ht, hb⟩ := ih h
      refine ⟨ht, fun _ => ⟨?_, hp⟩⟩
      cases bs with
      | nil => simp; omega
      | cons b' bs => have := (hb (by simp)).1; simp only [List.length_cons] at this ⊢; omega

theorem memWrites_ok {a : Nat} (bs : List Byte) (h : a + bs.length ≤ memSize)
    (hp : programBase ≤ a ∨ p.lowWritePolicy ≠ .fault) :
    s.memWrites p a bs = .ok { s with mem := memStoreAll p s.mem a bs } := by
  induction bs generalizing a s with
  | nil => rfl
  | cons b bs ih =>
    simp only [List.length_cons] at h
    rw [State.memWrites, memWrite_ok b (by omega) hp]
    exact ih (by omega) (hp.imp_left fun hl => Nat.le_succ_of_le hl)

/-- Writes that begin in the reserved region report their first address. -/
theorem memWrites_reserved {a : Nat} {bs : List Byte} (hb : bs ≠ []) (h : a < programBase)
    (hp : p.lowWritePolicy = .fault) : s.memWrites p a bs = .error (.reservedWrite a) := by
  cases bs with
  | nil => exact absurd rfl hb
  | cons b bs => rw [State.memWrites, memWrite_reserved b h hp]

/-- Writes that run past memory report the lowest address past it. -/
theorem memWrites_outside {a : Nat} {bs : List Byte} (hb : bs ≠ []) (h : memSize < a + bs.length)
    (hp : programBase ≤ a ∨ p.lowWritePolicy ≠ .fault) :
    s.memWrites p a bs = .error (.addressOutOfRange (max a memSize)) := by
  induction bs generalizing a s with
  | nil => exact absurd rfl hb
  | cons b bs ih =>
    simp only [List.length_cons] at h
    rw [State.memWrites]
    by_cases ha : memSize ≤ a
    · rw [memWrite_outside b ha, Nat.max_eq_left ha]
    · rw [memWrite_ok b (by omega) hp]
      have hne : bs ≠ [] := by
        rintro rfl
        simp at h
        omega
      have hrest := ih (s := { s with mem := memStore p s.mem a b }) (a := a + 1) hne (by omega)
        (hp.imp_left fun hl => Nat.le_succ_of_le hl)
      dsimp only
      rw [hrest]
      simp only [Except.error.injEq, Fault.addressOutOfRange.injEq]
      omega

/-! Fetch and issue. -/

theorem fetch16_ok (h : s.pc.toNat + 1 < memSize) :
    s.fetch16 p = .ok (wordOfBytes (s.byteAt p s.pc.toNat) (s.byteAt p (s.pc.toNat + 1))) := by
  rw [State.fetch16, memRead_ok (by omega), memRead_ok h]

theorem fetch16_error (h : memSize ≤ s.pc.toNat + 1) :
    s.fetch16 p = .error (.addressOutOfRange (max s.pc.toNat memSize)) := by
  unfold State.fetch16
  by_cases h1 : memSize ≤ s.pc.toNat
  · rw [memRead_error h1, Nat.max_eq_left h1]
  · rw [memRead_ok (by omega), memRead_error h, Nat.max_eq_right (by omega)]
    simp only [Except.error.injEq, Fault.addressOutOfRange.injEq]
    omega

/-- A step that issues an instruction fetched its word inside memory with no fault recorded. -/
theorem issue_ok {i : Instr} (h : s.issue p = .ok i) :
    s.fault = none ∧ s.pc.toNat + 1 < memSize ∧
      decode (wordOfBytes (s.byteAt p s.pc.toNat) (s.byteAt p (s.pc.toNat + 1))) = .ok i := by
  unfold State.issue at h
  split at h
  · cases h
  · rename_i hf
    by_cases hpc : s.pc.toNat + 1 < memSize
    · rw [fetch16_ok hpc] at h
      refine ⟨hf, hpc, ?_⟩
      revert h
      dsimp only
      split
      · intro h; cases h
      · rename_i i' hd
        intro h
        rw [hd, Except.ok.inj h]
    · rw [fetch16_error (by omega)] at h
      cases h

/-- A step that issues none ends in the same state, but for a fault record it may have taken. -/
theorem issue_error (h : s.issue p = .error t) :
    (s.fault ≠ none ∧ t = s) ∨ (s.fault = none ∧ ∃ k o, t = s.takeFault k o) := by
  unfold State.issue at h
  split at h
  · rename_i r hf
    exact .inl ⟨by simp [hf], by simpa using h.symm⟩
  · rename_i hf
    refine .inr ⟨hf, ?_⟩
    split at h
    · exact ⟨_, _, by simpa using h.symm⟩
    · split at h
      · exact ⟨_, _, by simpa using h.symm⟩
      · cases h

end Sys2Proof.Machine
end

