-- ==== Sys2Proof/Laws/Display.lean ====
section
/-! SUPPORT. The framebuffer under toggles: a draw is a fold of toggles over the pixels its 1 bits fall on, no pixel
twice (spec rule R171, corner case (d)). -/

namespace Sys2Proof.Machine

/-- Two framebuffers with the same pixels are equal. -/
theorem display_ext {d d' : Display} (h : ∀ (c : Fin 64) (r : Fin 32), getPixel d c r = getPixel d' c r) : d = d' := by
  apply Vector.ext
  intro r hr
  apply Vector.ext
  intro c hc
  exact h ⟨c, hc⟩ ⟨r, hr⟩

/-- A toggle inverts its pixel and leaves every other one. -/
theorem getPixel_togglePixel (d : Display) (c c' : Fin 64) (r r' : Fin 32) :
    getPixel (togglePixel d c r) c' r' = if c = c' ∧ r = r' then !getPixel d c' r' else getPixel d c' r' := by
  by_cases hr : r = r'
  · subst hr
    by_cases hc : c = c'
    · subst hc
      simp [getPixel, togglePixel]
    · have : c.val ≠ c'.val := fun h => hc (Fin.ext h)
      simp [getPixel, togglePixel, hc, this]
  · have : r.val ≠ r'.val := fun h => hr (Fin.ext h)
    simp [getPixel, togglePixel, hr, this]

@[simp] theorem getPixel_clearDisplay (c : Fin 64) (r : Fin 32) : getPixel clearDisplay c r = false := by
  simp [getPixel, clearDisplay]

/-- One sprite bit of value 1: collide, then toggle. -/
def hit (cv : Canvas) (q : Fin 64 × Fin 32) : Canvas :=
  (togglePixel cv.1 q.1 q.2, cv.2 || getPixel cv.1 q.1 q.2)

/-- The pixels one sprite row falls on. -/
def rowHits (xs yr : Nat) (b : Byte) : List (Fin 64 × Fin 32) :=
  ((List.range 8).filter (spriteBit b)).map (fun c => (Fin.ofNat 64 (xs + c), Fin.ofNat 32 yr))

/-- The pixels a sprite falls on. -/
def allHits (xs : Nat) : Nat → List Byte → List (Fin 64 × Fin 32)
  | _, [] => []
  | yr, b :: rows => rowHits xs yr b ++ allHits xs (yr + 1) rows

theorem drawRow_eq_hits (xs yr : Nat) (b : Byte) (cv : Canvas) :
    drawRow xs yr b cv = (rowHits xs yr b).foldl hit cv := by
  simp only [drawRow, rowHits, List.foldl_map, List.foldl_filter]
  rfl

theorem drawRows_eq_hits (xs yr : Nat) (rows : List Byte) (cv : Canvas) :
    drawRows xs yr rows cv = (allHits xs yr rows).foldl hit cv := by
  induction rows generalizing yr cv with
  | nil => rfl
  | cons b rows ih => rw [drawRows, ih, drawRow_eq_hits, allHits, List.foldl_append]

/-- Which pixels a sprite falls on. -/
theorem mem_allHits {xs yr : Nat} {rows : List Byte} {c : Fin 64} {r : Fin 32} :
    (c, r) ∈ allHits xs yr rows ↔
      ∃ k j : Nat, k < rows.length ∧ j < 8 ∧ (rows[k]?.getD 0#8).getLsbD (7 - j) = true ∧
        c.val = (xs + j) % 64 ∧ r.val = (yr + k) % 32 := by
  induction rows generalizing yr with
  | nil => simp [allHits]
  | cons b rows ih =>
    rw [allHits, List.mem_append, ih]
    constructor
    · rintro (h | ⟨k, j, hk, hj, hb, hc, hr⟩)
      · obtain ⟨j, hj, he⟩ := List.mem_map.mp h
        obtain ⟨hj, hb⟩ := List.mem_filter.mp hj
        obtain ⟨rfl, rfl⟩ := Prod.mk.inj he
        exact ⟨0, j, by simp, List.mem_range.mp hj, by simpa [spriteBit] using hb, rfl, rfl⟩
      · exact ⟨k + 1, j, by simpa using hk, hj, by simpa using hb, hc, by rw [hr]; congr 1; omega⟩
    · rintro ⟨k, j, hk, hj, hb, hc, hr⟩
      cases k with
      | zero =>
        refine .inl (List.mem_map.mpr ⟨j, List.mem_filter.mpr ⟨List.mem_range.mpr hj, by simpa [spriteBit] using hb⟩, ?_⟩)
        exact Prod.ext (Fin.ext hc.symm) (Fin.ext hr.symm)
      | succ k =>
        exact .inr ⟨k, j, by simpa using hk, hj, by simpa using hb, hc, by rw [hr]; congr 1; omega⟩

theorem rowHits_nodup (xs yr : Nat) (b : Byte) : (rowHits xs yr b).Nodup := by
  refine List.Nodup.map_on ?_ (List.nodup_range.filter _)
  intro i hi j hj h
  have hi8 := List.mem_range.mp (List.mem_filter.mp hi).1
  have hj8 := List.mem_range.mp (List.mem_filter.mp hj).1
  have h64 : (xs + i) % 64 = (xs + j) % 64 := congrArg Fin.val (Prod.mk.inj h).1
  omega

/-- No pixel is hit twice: a row spans 8 < 64 columns and a sprite at most 32 rows. -/
theorem allHits_nodup {xs yr : Nat} {rows : List Byte} (h : rows.length ≤ 32) : (allHits xs yr rows).Nodup := by
  induction rows generalizing yr with
  | nil => simp [allHits]
  | cons b rows ih =>
    simp only [List.length_cons] at h
    refine List.Nodup.append (rowHits_nodup xs yr b) (ih (by omega)) ?_
    rintro ⟨c, r⟩ h1 h2
    obtain ⟨k, j, hk, _, _, _, hr⟩ := mem_allHits.mp h2
    obtain ⟨j', _, he⟩ := List.mem_map.mp h1
    have hr' : yr % 32 = r.val := congrArg Fin.val (Prod.mk.inj he).2
    omega

/-- Folding hits over distinct pixels toggles exactly them, and collides when one of them was set. -/
theorem foldl_hit {l : List (Fin 64 × Fin 32)} (hl : l.Nodup) (cv : Canvas) :
    (∀ (c : Fin 64) (r : Fin 32), getPixel (l.foldl hit cv).1 c r =
      if (c, r) ∈ l then !getPixel cv.1 c r else getPixel cv.1 c r) ∧
    ((l.foldl hit cv).2 = true ↔ cv.2 = true ∨ ∃ q ∈ l, getPixel cv.1 q.1 q.2 = true) := by
  induction l generalizing cv with
  | nil => simp
  | cons q l ih =>
    obtain ⟨hq, hl⟩ := List.nodup_cons.mp hl
    obtain ⟨h1, h2⟩ := ih hl (hit cv q)
    refine ⟨fun c r => ?_, ?_⟩
    · rw [List.foldl_cons, h1]
      simp only [hit, getPixel_togglePixel, List.mem_cons]
      by_cases hc : (c, r) = q
      · subst hc
        simp [hq]
      · have hne : ¬ (q.1 = c ∧ q.2 = r) := fun ⟨a, b⟩ => hc (by rw [← a, ← b])
        simp [hc, hne]
    · rw [List.foldl_cons, h2]
      have hsame : ∀ q' ∈ l, getPixel (hit cv q).1 q'.1 q'.2 = getPixel cv.1 q'.1 q'.2 := by
        intro q' hq'
        have hne : ¬ (q.1 = q'.1 ∧ q.2 = q'.2) := fun ⟨a, b⟩ => hq (by rwa [Prod.ext a b])
        simp [hit, getPixel_togglePixel, hne]
      constructor
      · rintro (h | ⟨q', hq', hp⟩)
        · rcases (Bool.or_eq_true _ _).mp h with h | h
          · exact .inl h
          · exact .inr ⟨q, by simp, h⟩
        · exact .inr ⟨q', by simp [hq'], by rwa [← hsame q' hq']⟩
      · rintro (h | ⟨q', hq', hp⟩)
        · exact .inl (by simp [hit, h])
        · rcases List.mem_cons.mp hq' with rfl | hq'
          · exact .inl (by simp [hit, hp])
          · exact .inr ⟨q', hq', by rwa [hsame q' hq']⟩

/-- What a draw leaves: every pixel under a 1 bit toggled, every other as it was; the collision flag says whether one of
the toggled pixels was set. -/
theorem drawRows_spec {xs ys : Nat} {rows : List Byte} (h : rows.length ≤ 32) (d : Display) :
    (∀ (c : Fin 64) (r : Fin 32), getPixel (drawRows xs ys rows (d, false)).1 c r =
      if (c, r) ∈ allHits xs ys rows then !getPixel d c r else getPixel d c r) ∧
    ((drawRows xs ys rows (d, false)).2 = true ↔ ∃ q ∈ allHits xs ys rows, getPixel d q.1 q.2 = true) := by
  rw [drawRows_eq_hits]
  have hf := foldl_hit (allHits_nodup (xs := xs) (yr := ys) h) (d, false)
  exact ⟨hf.1, hf.2.trans (by simp)⟩

/-- The draw, once its rows are read: everything it changes. -/
theorem drawSprite_ok {p : Params} {x y n : Nibble} {s : State} (h : n.toNat = 0 ∨ s.indexAddr + n.toNat ≤ memSize) :
    ∃ rows : List Byte, rows = (List.range n.toNat).map (fun k => s.byteAt p (s.indexAddr + k)) ∧
      drawSprite p x y n s = .ok
        { (s.setV vf 0#8).setV vf (flagByte (drawRows (((s.setV vf 0#8).getV x).toNat % 64)
            (((s.setV vf 0#8).getV y).toNat % 32) rows (s.disp, false)).2) with
          disp := (drawRows (((s.setV vf 0#8).getV x).toNat % 64) (((s.setV vf 0#8).getV y).toNat % 32) rows
            (s.disp, false)).1
          needsRedraw := true } := by
  refine ⟨_, rfl, ?_⟩
  have hr : (s.setV vf 0#8).memReads p (s.setV vf 0#8).indexAddr n.toNat =
      .ok ((List.range n.toNat).map (fun k => s.byteAt p (s.indexAddr + k))) := by
    rcases h with h | h
    · rw [h]
      rfl
    · exact memReads_ok h
  unfold drawSprite
  dsimp only
  rw [hr]
  rfl

end Sys2Proof.Machine
end

