-- ==== Sys2Proof/Laws/HostOps.lean ====
section
/-! SUPPORT. What a load, a tick and a placed word leave (spec rules R221, R231). -/

namespace Sys2Proof.Machine

variable {p : Params} {s t : State}

/-- A load that succeeds found no fault and a ROM that fits, and changed memory alone. -/
theorem load_cases {rom : List Byte} (h : s.load p rom = .ok t) :
    s.fault = none ∧ rom.length ≤ maxRom ∧ t = { s with mem := memStoreAll p s.mem programBase rom } := by
  unfold State.load at h
  split at h
  · cases h
  · split at h
    · cases h
    · exact ⟨by simpa using ‹¬ s.fault ≠ none›, by omega, (Except.ok.inj h).symm⟩

/-- A tick takes one from a timer, and stops at 0. -/
@[simp] theorem toNat_tickByte (b : Byte) : (tickByte b).toNat = b.toNat - 1 := by
  unfold tickByte
  split
  · simp [*]
  · rename_i h
    have h0 : b.toNat ≠ 0 := fun h0 => h (BitVec.eq_of_toNat_eq (by simpa using h0))
    have hb := b.isLt
    rw [BitVec.toNat_sub]
    simp
    omega

theorem tickTimers_eq (h : s.fault = none) : s.tickTimers = { s with dt := tickByte s.dt, st := tickByte s.st } := by
  simp [State.tickTimers, h]

theorem tickTimers_faulted (h : s.fault ≠ none) : s.tickTimers = s := by
  simp [State.tickTimers, h]

/-- The address a word is placed at has both its bytes in memory. -/
theorem placePc_lt (s : State) : s.placePc.toNat + 1 < memSize := by
  unfold State.placePc
  split
  · assumption
  · decide

/-- The two bytes at PC of a state a word was placed in make that word. -/
theorem wordOfBytes_placeWord (s : State) (op : Word) :
    wordOfBytes ((s.placeWord p op).byteAt p (s.placeWord p op).pc.toNat)
      ((s.placeWord p op).byteAt p ((s.placeWord p op).pc.toNat + 1)) = op := by
  have h0 : (s.placeWord p op).byteAt p s.placePc.toNat = op.extractLsb' 8 8 := by
    simp [State.byteAt, State.placeWord, memLookup_memStoreAll, bytesOfWord]
  have h1 : (s.placeWord p op).byteAt p (s.placePc.toNat + 1) = op.extractLsb' 0 8 := by
    simp [State.byteAt, State.placeWord, memLookup_memStoreAll, bytesOfWord]
  have hpc : (s.placeWord p op).pc = s.placePc := rfl
  rw [hpc, h0, h1, wordOfBytes_bytesOfWord]

end Sys2Proof.Machine
end

