-- ==== Sys2Proof/Laws/Operands.lean ====
section
/-! SUPPORT. What each operand form and each flag computation is, as a number or a choice. -/

namespace Sys2Proof.Machine

variable {s : State}

@[simp] theorem toNat_zext16 (nnn : Addr12) : (zext16 nnn).toNat = nnn.toNat := by
  simp only [zext16, BitVec.toNat_setWidth]
  omega

@[simp] theorem toNat_jumpV0Target (nnn : Addr12) (v0 : Byte) :
    (jumpV0Target nnn v0).toNat = nnn.toNat + v0.toNat := by
  simp only [jumpV0Target, BitVec.toNat_ofNat]
  omega

/-- The low nibble of a byte is its remainder by 16. -/
theorem toNat_and_15 (b : Byte) : (b &&& 0x0F#8).toNat = b.toNat % 16 := by
  rw [BitVec.toNat_and]
  exact Nat.and_two_pow_sub_one_eq_mod b.toNat 4

theorem toNat_glyphAddress (p : Params) (b : Byte) :
    (glyphAddress p b).toNat = p.fontBase.toNat + b.toNat % 16 * 5 := by
  simp only [glyphAddress, BitVec.toNat_ofNat, toNat_and_15]
  have := p.fontBase.isLt
  omega

@[simp] theorem length_bcdDigits (b : Byte) : (bcdDigits b).length = 3 := rfl

@[simp] theorem length_regRange (x : Nibble) : (s.regRange x).length = x.toNat + 1 := by
  have := x.isLt
  simp [State.regRange]
  omega

/-- The `k`-th byte of the register range is V[k]. -/
theorem getElem?_regRange {x k : Nibble} (h : k.toNat ≤ x.toNat) : (s.regRange x)[k.toNat]? = some (s.getV k) := by
  have := k.isLt
  simp [State.regRange, State.getV, Nat.lt_succ_of_le h]

/-- A key index is the key of that number, or out of range. -/
theorem keyOf_ok {b : Byte} {k : Nibble} (h : b.toNat = k.toNat) : s.keyOf b = .ok (s.key k) := by
  have hk := k.isLt
  have hb : ¬ 0x0F#8 < b := by
    rw [BitVec.lt_def]
    simp
    omega
  have he : b.setWidth 4 = k := by
    apply BitVec.eq_of_toNat_eq
    rw [BitVec.toNat_setWidth]
    omega
  simp [State.keyOf, hb, he]

theorem keyOf_error {b : Byte} (h : 0xF < b.toNat) : s.keyOf b = .error (.keyIndexOutOfRange b) := by
  have hb : 0x0F#8 < b := by simpa [BitVec.lt_def] using h
  simp [State.keyOf, hb]

/-- With no key down there is no least one. -/
theorem leastKeyDown_none (h : ∀ k : Nibble, s.key k = false) : s.leastKeyDown = none := by
  rw [State.leastKeyDown, List.findIdx?_eq_none_iff]
  intro d hd
  obtain ⟨k, hk, rfl⟩ := List.getElem_of_mem hd
  have hk16 : k < 16 := by simpa using hk
  have := h (BitVec.ofNat 4 k)
  simpa [State.key, Nat.mod_eq_of_lt hk16] using this

/-- The least key down: it is down, and none below it is. -/
theorem leastKeyDown_some {k : Nibble} (h : s.key k = true) (hl : ∀ j : Nibble, j.toNat < k.toNat → s.key j = false) :
    s.leastKeyDown = some k.toNat := by
  rw [State.leastKeyDown, List.findIdx?_eq_some_iff_getElem]
  refine ⟨by simpa using k.isLt, by simpa [State.key] using h, fun j hj => ?_⟩
  have hj16 : j < 16 := Nat.lt_trans hj k.isLt
  have := hl (BitVec.ofNat 4 j) (by simpa [Nat.mod_eq_of_lt hj16] using hj)
  simpa [State.key, Nat.mod_eq_of_lt hj16] using this

/-- If a least key is found, it is one of the sixteen. -/
theorem leastKeyDown_lt {k : Nat} (h : s.leastKeyDown = some k) : k < 16 := by
  rw [State.leastKeyDown, List.findIdx?_eq_some_iff_getElem] at h
  obtain ⟨hk, _⟩ := h
  simpa using hk

/-! The forms read I, the registers and memory alone: what leaves those as they are does not change a form. -/

@[simp] theorem indexAddr_advance : s.advance.indexAddr = s.indexAddr := rfl

@[simp] theorem indexAddr_setV (x : Nibble) (b : Byte) : (s.setV x b).indexAddr = s.indexAddr := rfl

@[simp] theorem regRange_advance (x : Nibble) : s.advance.regRange x = s.regRange x := rfl

@[simp] theorem byteAt_advance (p : Params) (a : Nat) : s.advance.byteAt p a = s.byteAt p a := rfl

@[simp] theorem byteAt_setV (p : Params) (x : Nibble) (b : Byte) (a : Nat) : (s.setV x b).byteAt p a = s.byteAt p a := rfl

@[simp] theorem byteAt_setPc (p : Params) (w : Word) (a : Nat) : (s.setPc w).byteAt p a = s.byteAt p a := rfl

@[simp] theorem byteAt_setVs (p : Params) (bs : List Byte) (a : Nat) : (s.setVs bs).byteAt p a = s.byteAt p a := rfl

@[simp] theorem byteAt_skipIf (p : Params) (c : Bool) (a : Nat) : (s.skipIf c).byteAt p a = s.byteAt p a := by
  cases c <;> rfl

@[simp] theorem byteAt_takeFault (p : Params) (k : Fault) (o : Option Word) (a : Nat) :
    (s.takeFault k o).byteAt p a = s.byteAt p a := rfl

/-! The results and flags. -/

theorem toNat_addResult (a b : Byte) : (addResult a b).toNat = (a.toNat + b.toNat) % 256 := by simp [addResult]

theorem toNat_subResult (a b : Byte) : (subResult a b).toNat = (a.toNat + 256 - b.toNat) % 256 := by simp [subResult]

theorem shrResult_eq (a : Byte) : shrResult a = a >>> 1 := by
  apply BitVec.eq_of_toNat_eq
  have := a.isLt
  simp only [shrResult, BitVec.toNat_ofNat, BitVec.toNat_ushiftRight, Nat.shiftRight_eq_div_pow]
  omega

theorem shlResult_eq (a : Byte) : shlResult a = a <<< 1 := by
  apply BitVec.eq_of_toNat_eq
  simp only [shlResult, BitVec.toNat_ofNat, BitVec.toNat_shiftLeft, Nat.shiftLeft_eq, Nat.pow_one]

theorem shrFlag_eq (a : Byte) : shrFlag a = a.getLsbD 0 := by
  revert a
  decide

theorem shlFlag_eq (a : Byte) : shlFlag a = a.getLsbD 7 := by
  revert a
  decide

end Sys2Proof.Machine
end

