-- ==== Sys2Proof/Laws/Inversion.lean ====
section
/-! SUPPORT. Said once for each operation that may raise a fault: if it answers a state, what that state is. An
instruction's own effect is `commit` of one of these (`commit_cases`), or a plain `.next`. -/

namespace Sys2Proof.Machine

variable {p : Params} {s t : State}

theorem popPc_cases (h : s.popPc = .ok t) :
    s.sp.val ≠ 0 ∧ ∃ (n : Fin 17) (w : Word), n.val + 1 = s.sp.val ∧ s.stack[s.sp.val - 1]? = some w ∧
      t = { s with sp := n, pc := w } := by
  by_cases h0 : s.sp.val = 0
  · rw [popPc_empty h0] at h
    cases h
  · rw [popPc_pos h0] at h
    have hlt := s.sp.isLt
    refine ⟨h0, ⟨s.sp.val - 1, by omega⟩, s.stack[s.sp.val - 1]'(by omega), by dsimp only; omega, ?_, (Except.ok.inj h).symm⟩
    simp [show s.sp.val - 1 < 16 by omega]

theorem push_cases {w : Word} (h : s.push w = .ok t) :
    ∃ (hlt : s.sp.val < 16) (n : Fin 17), n.val = s.sp.val + 1 ∧
      t = { s with stack := s.stack.set s.sp.val w hlt, sp := n } := by
  by_cases hlt : s.sp.val < 16
  · rw [push_lt w hlt] at h
    exact ⟨hlt, ⟨s.sp.val + 1, Nat.succ_lt_succ hlt⟩, rfl, (Except.ok.inj h).symm⟩
  · rw [push_full w (by have := s.sp.isLt; omega)] at h
    cases h

theorem addIndex_cases {b : Byte} (h : s.addIndex b = .ok t) :
    s.i.toNat + b.toNat ≤ 0xFFFF ∧ t = { s with i := BitVec.ofNat 16 (s.i.toNat + b.toNat) } := by
  unfold State.addIndex at h
  split at h
  · cases h
  · exact ⟨by omega, (Except.ok.inj h).symm⟩

theorem keyOf_cases {b : Byte} {d : Bool} (h : s.keyOf b = .ok d) :
    ∃ k : Nibble, k.toNat = b.toNat ∧ d = s.key k := by
  by_cases hb : 0xF < b.toNat
  · rw [keyOf_error hb] at h
    cases h
  · have hk : b.toNat = (BitVec.ofNat 4 b.toNat).toNat := by
      rw [BitVec.toNat_ofNat]
      omega
    rw [keyOf_ok hk] at h
    exact ⟨_, hk.symm, (Except.ok.inj h).symm⟩

/-- The BCD store writes its three bytes, all of them inside program memory under the fault policy. -/
theorem bcdStore_cases {x : Nibble} (h : bcdStore p x s = .ok t) :
    t = { s with mem := memStoreAll p s.mem s.indexAddr (bcdDigits (s.getV x)) } ∧ s.indexAddr + 3 ≤ memSize ∧
      (programBase ≤ s.indexAddr ∨ p.lowWritePolicy ≠ .fault) := by
  obtain ⟨ht, hb⟩ := memWrites_cases h
  exact ⟨ht, hb (by simp [bcdDigits])⟩

/-- The block store writes V0 to Vx, all of them inside program memory under the fault policy. -/
theorem blockStore_cases {x : Nibble} (h : blockStore p x s = .ok t) :
    t = { s with mem := memStoreAll p s.mem s.indexAddr (s.regRange x) } ∧
      s.indexAddr + (x.toNat + 1) ≤ memSize ∧ (programBase ≤ s.indexAddr ∨ p.lowWritePolicy ≠ .fault) := by
  obtain ⟨ht, hb⟩ := memWrites_cases h
  have hne : s.regRange x ≠ [] := fun h0 => by simpa using congrArg List.length h0
  exact ⟨ht, by simpa using hb hne⟩

theorem memReads_cases {a n : Nat} {bs : List Byte} (h : s.memReads p a n = .ok bs) :
    (n = 0 ∨ a + n ≤ memSize) ∧ bs = (List.range n).map (fun k => s.byteAt p (a + k)) := by
  by_cases hn : n = 0
  · subst hn
    exact ⟨.inl rfl, (Except.ok.inj h).symm⟩
  · by_cases hm : a + n ≤ memSize
    · rw [memReads_ok hm] at h
      exact ⟨.inr hm, (Except.ok.inj h).symm⟩
    · rw [memReads_error hn (by omega)] at h
      cases h

/-- The block load changes registers only: V0 to Vx are the bytes from I on. -/
theorem blockLoad_cases {x : Nibble} (h : blockLoad p x s = .ok t) :
    s.indexAddr + (x.toNat + 1) ≤ memSize ∧
      t = s.setVs ((List.range (x.toNat + 1)).map (fun k => s.byteAt p (s.indexAddr + k))) := by
  unfold blockLoad at h
  cases hr : s.memReads p s.indexAddr (rangeSize x) with
  | error k =>
    rw [hr] at h
    cases h
  | ok bs =>
    rw [hr] at h
    obtain ⟨hm, rfl⟩ := memReads_cases hr
    exact ⟨hm.resolve_left (by simp [rangeSize]), (Except.ok.inj h).symm⟩

/-- A draw changes VF, the framebuffer and `needs_redraw` only. -/
theorem drawSprite_cases {x y n : Nibble} (h : drawSprite p x y n s = .ok t) :
    (n.toNat = 0 ∨ s.indexAddr + n.toNat ≤ memSize) ∧
      ∃ (f : Byte) (d : Display), t = { (s.setV vf 0#8).setV vf f with disp := d, needsRedraw := true } := by
  by_cases hm : n.toNat = 0 ∨ s.indexAddr + n.toNat ≤ memSize
  · obtain ⟨rows, _, hd⟩ := drawSprite_ok (p := p) (x := x) (y := y) hm
    rw [hd] at h
    exact ⟨hm, _, _, (Except.ok.inj h).symm⟩
  · rw [not_or] at hm
    have hr : (s.setV vf 0#8).memReads p (s.setV vf 0#8).indexAddr n.toNat = _ :=
      memReads_error hm.1 (by have := hm.2; simp only [indexAddr_setV]; omega)
    unfold drawSprite at h
    dsimp only at h
    rw [hr] at h
    cases h

end Sys2Proof.Machine
end

