-- ==== Sys2Proof/Laws/PerInstr.lean ====
section
/-! SUPPORT. A fact about every instruction as syntax, one lemma per constructor: the word of a well-formed instruction is
one its own row of the opcode map matches, and no row before it does (spec rule R80). -/

namespace Sys2Proof.Laws.EncodeMatchesRow

/-- The encoded word's first row in the opcode map is the instruction's own (R80). -/
def Statement (i : Instr) : Prop := i.wellFormed = true → opcodeRow (encode i) = some i.row

/-- The first row of a word, with every mask and pattern taken nibble by nibble. -/
theorem opcodeRow_eq (op : Word) :
    opcodeRow op = (opcodeMap.find? (fun r =>
      (opN1 op &&& opN1 r.2.2 == opN1 r.2.1) && (opX op &&& opX r.2.2 == opX r.2.1) &&
        (opY op &&& opY r.2.2 == opY r.2.1) && (opN op &&& opN r.2.2 == opN r.2.1))).map (·.1) := by
  unfold opcodeRow
  congr 2
  funext r
  rw [Bool.eq_iff_iff]
  simp [and_mask_iff, and_assoc]

theorem cls : Statement .cls := by
  intro _
  decide

theorem ret : Statement .ret := by
  intro _
  decide

theorem sys (nnn : Addr12) : Statement (.sys nnn) := by
  intro h
  simp only [Instr.wellFormed, bne_iff_ne, ne_eq, Bool.and_eq_true] at h
  have h1 : (0x0#4 ++ nnn : Word) ≠ 0x00E0#16 := fun hw => h.1 (by simpa [opNnn_ofNat] using congrArg opNnn hw)
  have h2 : (0x0#4 ++ nnn : Word) ≠ 0x00EE#16 := fun hw => h.2 (by simpa [opNnn_ofNat] using congrArg opNnn hw)
  have h3 : (0x0#4 ++ nnn : Word) &&& 0xF000#16 = 0x0000#16 := by
    rw [and_mask_iff]
    simp [opN1_ofNat, opX_ofNat, opY_ofNat, opN_ofNat]
  have hall (w : Word) : w &&& 0xFFFF#16 = w := BitVec.and_allOnes
  simp only [encode, opcodeRow, opcodeMap, Instr.row, List.cons_append, List.find?_cons, hall,
    beq_eq_false_iff_ne.mpr h1, beq_eq_false_iff_ne.mpr h2, h3]
  rfl

theorem jp (nnn : Addr12) : Statement (.jp nnn) := by
  intro _
  rw [opcodeRow_eq]
  simp [encode, opcodeMap, Instr.row, opN1_ofNat, opX_ofNat, opY_ofNat, opN_ofNat, nibble_and_15]

theorem call (nnn : Addr12) : Statement (.call nnn) := by
  intro _
  rw [opcodeRow_eq]
  simp [encode, opcodeMap, Instr.row, opN1_ofNat, opX_ofNat, opY_ofNat, opN_ofNat, nibble_and_15]

theorem seImm (x : Nibble) (kk : Byte) : Statement (.seImm x kk) := by
  intro _
  rw [opcodeRow_eq]
  simp [encode, opcodeMap, Instr.row, opY_xkk, opN_xkk, opN1_ofNat, opX_ofNat, opY_ofNat, opN_ofNat,
    nibble_and_15]

theorem sneImm (x : Nibble) (kk : Byte) : Statement (.sneImm x kk) := by
  intro _
  rw [opcodeRow_eq]
  simp [encode, opcodeMap, Instr.row, opY_xkk, opN_xkk, opN1_ofNat, opX_ofNat, opY_ofNat, opN_ofNat,
    nibble_and_15]

theorem seReg (x y : Nibble) : Statement (.seReg x y) := by
  intro _
  rw [opcodeRow_eq]
  simp [encode, opcodeMap, Instr.row, opN1_ofNat, opX_ofNat, opY_ofNat, opN_ofNat, nibble_and_15]

theorem ldImm (x : Nibble) (kk : Byte) : Statement (.ldImm x kk) := by
  intro _
  rw [opcodeRow_eq]
  simp [encode, opcodeMap, Instr.row, opY_xkk, opN_xkk, opN1_ofNat, opX_ofNat, opY_ofNat, opN_ofNat,
    nibble_and_15]

theorem addImm (x : Nibble) (kk : Byte) : Statement (.addImm x kk) := by
  intro _
  rw [opcodeRow_eq]
  simp [encode, opcodeMap, Instr.row, opY_xkk, opN_xkk, opN1_ofNat, opX_ofNat, opY_ofNat, opN_ofNat,
    nibble_and_15]

theorem ldReg (x y : Nibble) : Statement (.ldReg x y) := by
  intro _
  rw [opcodeRow_eq]
  simp [encode, opcodeMap, Instr.row, opN1_ofNat, opX_ofNat, opY_ofNat, opN_ofNat, nibble_and_15]

theorem orReg (x y : Nibble) : Statement (.orReg x y) := by
  intro _
  rw [opcodeRow_eq]
  simp [encode, opcodeMap, Instr.row, opN1_ofNat, opX_ofNat, opY_ofNat, opN_ofNat, nibble_and_15]

theorem andReg (x y : Nibble) : Statement (.andReg x y) := by
  intro _
  rw [opcodeRow_eq]
  simp [encode, opcodeMap, Instr.row, opN1_ofNat, opX_ofNat, opY_ofNat, opN_ofNat, nibble_and_15]

theorem xorReg (x y : Nibble) : Statement (.xorReg x y) := by
  intro _
  rw [opcodeRow_eq]
  simp [encode, opcodeMap, Instr.row, opN1_ofNat, opX_ofNat, opY_ofNat, opN_ofNat, nibble_and_15]

theorem addReg (x y : Nibble) : Statement (.addReg x y) := by
  intro _
  rw [opcodeRow_eq]
  simp [encode, opcodeMap, Instr.row, opN1_ofNat, opX_ofNat, opY_ofNat, opN_ofNat, nibble_and_15]

theorem subReg (x y : Nibble) : Statement (.subReg x y) := by
  intro _
  rw [opcodeRow_eq]
  simp [encode, opcodeMap, Instr.row, opN1_ofNat, opX_ofNat, opY_ofNat, opN_ofNat, nibble_and_15]

theorem shr (x y : Nibble) : Statement (.shr x y) := by
  intro _
  rw [opcodeRow_eq]
  simp [encode, opcodeMap, Instr.row, opN1_ofNat, opX_ofNat, opY_ofNat, opN_ofNat, nibble_and_15]

theorem subn (x y : Nibble) : Statement (.subn x y) := by
  intro _
  rw [opcodeRow_eq]
  simp [encode, opcodeMap, Instr.row, opN1_ofNat, opX_ofNat, opY_ofNat, opN_ofNat, nibble_and_15]

theorem shl (x y : Nibble) : Statement (.shl x y) := by
  intro _
  rw [opcodeRow_eq]
  simp [encode, opcodeMap, Instr.row, opN1_ofNat, opX_ofNat, opY_ofNat, opN_ofNat, nibble_and_15]

theorem sneReg (x y : Nibble) : Statement (.sneReg x y) := by
  intro _
  rw [opcodeRow_eq]
  simp [encode, opcodeMap, Instr.row, opN1_ofNat, opX_ofNat, opY_ofNat, opN_ofNat, nibble_and_15]

theorem ldI (nnn : Addr12) : Statement (.ldI nnn) := by
  intro _
  rw [opcodeRow_eq]
  simp [encode, opcodeMap, Instr.row, opN1_ofNat, opX_ofNat, opY_ofNat, opN_ofNat, nibble_and_15]

theorem jpV0 (nnn : Addr12) : Statement (.jpV0 nnn) := by
  intro _
  rw [opcodeRow_eq]
  simp [encode, opcodeMap, Instr.row, opN1_ofNat, opX_ofNat, opY_ofNat, opN_ofNat, nibble_and_15]

theorem rnd (x : Nibble) (kk : Byte) : Statement (.rnd x kk) := by
  intro _
  rw [opcodeRow_eq]
  simp [encode, opcodeMap, Instr.row, opY_xkk, opN_xkk, opN1_ofNat, opX_ofNat, opY_ofNat, opN_ofNat,
    nibble_and_15]

theorem drw (x y n : Nibble) : Statement (.drw x y n) := by
  intro _
  rw [opcodeRow_eq]
  simp [encode, opcodeMap, Instr.row, opN1_ofNat, opX_ofNat, opY_ofNat, opN_ofNat, nibble_and_15]

theorem skp (x : Nibble) : Statement (.skp x) := by
  intro _
  rw [opcodeRow_eq]
  simp [encode, opcodeMap, Instr.row, opY_xkk, opN_xkk, opN1_ofNat, opX_ofNat, opY_ofNat, opN_ofNat,
    nibble_and_15]

theorem sknp (x : Nibble) : Statement (.sknp x) := by
  intro _
  rw [opcodeRow_eq]
  simp [encode, opcodeMap, Instr.row, opY_xkk, opN_xkk, opN1_ofNat, opX_ofNat, opY_ofNat, opN_ofNat,
    nibble_and_15]

theorem ldVxDt (x : Nibble) : Statement (.ldVxDt x) := by
  intro _
  rw [opcodeRow_eq]
  simp [encode, opcodeMap, Instr.row, opY_xkk, opN_xkk, opN1_ofNat, opX_ofNat, opY_ofNat, opN_ofNat,
    nibble_and_15]

theorem ldVxK (x : Nibble) : Statement (.ldVxK x) := by
  intro _
  rw [opcodeRow_eq]
  simp [encode, opcodeMap, Instr.row, opY_xkk, opN_xkk, opN1_ofNat, opX_ofNat, opY_ofNat, opN_ofNat,
    nibble_and_15]

theorem ldDtVx (x : Nibble) : Statement (.ldDtVx x) := by
  intro _
  rw [opcodeRow_eq]
  simp [encode, opcodeMap, Instr.row, opY_xkk, opN_xkk, opN1_ofNat, opX_ofNat, opY_ofNat, opN_ofNat,
    nibble_and_15]

theorem ldStVx (x : Nibble) : Statement (.ldStVx x) := by
  intro _
  rw [opcodeRow_eq]
  simp [encode, opcodeMap, Instr.row, opY_xkk, opN_xkk, opN1_ofNat, opX_ofNat, opY_ofNat, opN_ofNat,
    nibble_and_15]

theorem addI (x : Nibble) : Statement (.addI x) := by
  intro _
  rw [opcodeRow_eq]
  simp [encode, opcodeMap, Instr.row, opY_xkk, opN_xkk, opN1_ofNat, opX_ofNat, opY_ofNat, opN_ofNat,
    nibble_and_15]

theorem ldF (x : Nibble) : Statement (.ldF x) := by
  intro _
  rw [opcodeRow_eq]
  simp [encode, opcodeMap, Instr.row, opY_xkk, opN_xkk, opN1_ofNat, opX_ofNat, opY_ofNat, opN_ofNat,
    nibble_and_15]

theorem ldB (x : Nibble) : Statement (.ldB x) := by
  intro _
  rw [opcodeRow_eq]
  simp [encode, opcodeMap, Instr.row, opY_xkk, opN_xkk, opN1_ofNat, opX_ofNat, opY_ofNat, opN_ofNat,
    nibble_and_15]

theorem ldMemVx (x : Nibble) : Statement (.ldMemVx x) := by
  intro _
  rw [opcodeRow_eq]
  simp [encode, opcodeMap, Instr.row, opY_xkk, opN_xkk, opN1_ofNat, opX_ofNat, opY_ofNat, opN_ofNat,
    nibble_and_15]

theorem ldVxMem (x : Nibble) : Statement (.ldVxMem x) := by
  intro _
  rw [opcodeRow_eq]
  simp [encode, opcodeMap, Instr.row, opY_xkk, opN_xkk, opN1_ofNat, opX_ofNat, opY_ofNat, opN_ofNat,
    nibble_and_15]

end Sys2Proof.Laws.EncodeMatchesRow
end

