-- ==== Sys2Proof/Tests/Slice0.lean ====
section
/-! SUPPORT. The model's own tests. Every expected result is the spec's: a worked example of an instruction's rule, a row
of spec/95_test_vectors.md (named M, F, A, I, D, K, S or P and a number), or a word written out from R80. The last part
shows, for each statement with hypotheses, a concrete state and operands that meet them. -/

namespace Sys2Proof.Tests

open Sys2Proof Sys2Proof.Machine

/-! ## WellFormed: an ill-formed term for each check -/

theorem test_wellFormed_refuses_sys_cls : (Instr.sys 0x0E0#12).wellFormed = false := by decide
theorem test_wellFormed_refuses_sys_ret : (Instr.sys 0x0EE#12).wellFormed = false := by decide
theorem test_wellFormed_accepts_sys : (Instr.sys 0x0E1#12).wellFormed = true := by decide

/-! ## Decode: one word for every constructor, written out from R80 (M6, M7, M8, M9 among them) -/

theorem test_decode_cls : decode 0x00E0#16 = .ok (.cls) := by decide
theorem test_decode_ret : decode 0x00EE#16 = .ok (.ret) := by decide
theorem test_decode_sys : decode 0x00E1#16 = .ok (.sys 0x0E1#12) := by decide
theorem test_decode_jp : decode 0x1ABC#16 = .ok (.jp 0xABC#12) := by decide
theorem test_decode_call : decode 0x2400#16 = .ok (.call 0x400#12) := by decide
theorem test_decode_seImm : decode 0x3342#16 = .ok (.seImm 0x3#4 0x42#8) := by decide
theorem test_decode_sneImm : decode 0x4311#16 = .ok (.sneImm 0x3#4 0x11#8) := by decide
theorem test_decode_seReg : decode 0x5120#16 = .ok (.seReg 0x1#4 0x2#4) := by decide
theorem test_decode_ldImm : decode 0x6A2F#16 = .ok (.ldImm 0xA#4 0x2F#8) := by decide
theorem test_decode_addImm : decode 0x7520#16 = .ok (.addImm 0x5#4 0x20#8) := by decide
theorem test_decode_ldReg : decode 0x8AB0#16 = .ok (.ldReg 0xA#4 0xB#4) := by decide
theorem test_decode_orReg : decode 0x8121#16 = .ok (.orReg 0x1#4 0x2#4) := by decide
theorem test_decode_andReg : decode 0x8122#16 = .ok (.andReg 0x1#4 0x2#4) := by decide
theorem test_decode_xorReg : decode 0x8123#16 = .ok (.xorReg 0x1#4 0x2#4) := by decide
theorem test_decode_addReg : decode 0x8234#16 = .ok (.addReg 0x2#4 0x3#4) := by decide
theorem test_decode_subReg : decode 0x8125#16 = .ok (.subReg 0x1#4 0x2#4) := by decide
theorem test_decode_shr : decode 0x81A6#16 = .ok (.shr 0x1#4 0xA#4) := by decide
theorem test_decode_subn : decode 0x8127#16 = .ok (.subn 0x1#4 0x2#4) := by decide
theorem test_decode_shl : decode 0x8ABE#16 = .ok (.shl 0xA#4 0xB#4) := by decide
theorem test_decode_sneReg : decode 0x9120#16 = .ok (.sneReg 0x1#4 0x2#4) := by decide
theorem test_decode_ldI : decode 0xA2F0#16 = .ok (.ldI 0x2F0#12) := by decide
theorem test_decode_jpV0 : decode 0xB234#16 = .ok (.jpV0 0x234#12) := by decide
theorem test_decode_rnd : decode 0xC30F#16 = .ok (.rnd 0x3#4 0x0F#8) := by decide
theorem test_decode_drw : decode 0xD125#16 = .ok (.drw 0x1#4 0x2#4 0x5#4) := by decide
theorem test_decode_skp : decode 0xE29E#16 = .ok (.skp 0x2#4) := by decide
theorem test_decode_sknp : decode 0xE2A1#16 = .ok (.sknp 0x2#4) := by decide
theorem test_decode_ldVxDt : decode 0xF507#16 = .ok (.ldVxDt 0x5#4) := by decide
theorem test_decode_ldVxK : decode 0xF20A#16 = .ok (.ldVxK 0x2#4) := by decide
theorem test_decode_ldDtVx : decode 0xF515#16 = .ok (.ldDtVx 0x5#4) := by decide
theorem test_decode_ldStVx : decode 0xF218#16 = .ok (.ldStVx 0x2#4) := by decide
theorem test_decode_addI : decode 0xF21E#16 = .ok (.addI 0x2#4) := by decide
theorem test_decode_ldF : decode 0xF029#16 = .ok (.ldF 0x0#4) := by decide
theorem test_decode_ldB : decode 0xF533#16 = .ok (.ldB 0x5#4) := by decide
theorem test_decode_ldMemVx : decode 0xF255#16 = .ok (.ldMemVx 0x2#4) := by decide
theorem test_decode_ldVxMem : decode 0xF265#16 = .ok (.ldVxMem 0x2#4) := by decide

/-! Words that are no instruction (M8). -/

theorem test_decode_refuses_5xyN : decode 0x5121#16 = .error (.decodeFailure 0x5121#16) := by decide
theorem test_decode_refuses_8xyF : decode 0x800F#16 = .error (.decodeFailure 0x800F#16) := by decide
theorem test_decode_refuses_9xyN : decode 0x9ABF#16 = .error (.decodeFailure 0x9ABF#16) := by decide
theorem test_decode_refuses_ExKK : decode 0xE09F#16 = .error (.decodeFailure 0xE09F#16) := by decide
theorem test_decode_refuses_FxKK : decode 0xFFFF#16 = .error (.decodeFailure 0xFFFF#16) := by decide

theorem test_decodeBytes_bigEndian : decodeBytes [0x12#8, 0x34#8, 0xFF#8] = .ok (.jp 0x234#12, [0xFF#8]) := by decide
theorem test_decodeBytes_truncated : decodeBytes [0x12#8] = .error .truncated := by decide

/-! ## One step from a small state -/

/-- Start of a vector: reset, with some registers set. -/
def withRegs (rs : List (Nibble × Byte)) : State := rs.foldl (fun s r => s.setV r.1 r.2) State.reset

/-- The state after one step that runs the word, if the step answers one. -/
def after (s : State) (w : Nat) : Option State :=
  match step (s.withFetchWord 16 w) with
  | .next t => some t
  | .fault _ => none
  | .refused _ => none

/-- PC after one step. -/
def pcAfter (s : State) (w : Nat) : Option Word := (after s w).map (·.pc)

/-- Two registers after one step. -/
def regsAfter (s : State) (w : Nat) (x y : Nibble) : Option (Byte × Byte) := (after s w).map (fun t => (t.getV x, t.getV y))

/-- The fault and PC after one step. -/
def faultAfter (s : State) (w : Nat) : Option (Option FaultRecord × Word) := (after s w).map (fun t => (t.fault, t.pc))

/-- F1. -/
theorem test_ret_pops : pcAfter { State.reset with sp := 1, stack := Vector.replicate 16 0x206#16 } 0x00EE = some 0x206#16 := by decide
/-- F2, S9. -/
theorem test_ret_underflow : faultAfter State.reset 0x00EE =
    some (some ⟨.stackUnderflow, 0x200#16, some 0x00EE#16⟩, 0x200#16) := by decide
/-- F3. -/
theorem test_sys_jumps : pcAfter State.reset 0x0300 = some 0x300#16 := by decide
/-- F4. -/
theorem test_jp : pcAfter State.reset 0x1ABC = some 0xABC#16 := by decide
/-- F7. -/
theorem test_call_pushes : (after { State.reset with sp := 15, stack := Vector.replicate 16 0x206#16 } 0x2400).map (fun t => (t.pc, t.sp.val, t.stack[15])) =
    some (0x400#16, 16, 0x202#16) := by decide
/-- F8. -/
theorem test_call_overflow : faultAfter { State.reset with sp := 16, stack := Vector.replicate 16 0x206#16 } 0x2400 =
    some (some ⟨.stackOverflow, 0x200#16, some 0x2400#16⟩, 0x200#16) := by decide
/-- F9. -/
theorem test_seImm_skips : pcAfter (withRegs [(0x3#4, 0x42#8)]) 0x3342 = some 0x204#16 := by decide
/-- F10. -/
theorem test_seImm_goes_on : pcAfter (withRegs [(0x3#4, 0x42#8)]) 0x3343 = some 0x202#16 := by decide
/-- F11. -/
theorem test_sneImm_goes_on : pcAfter (withRegs [(0x3#4, 0x42#8)]) 0x4342 = some 0x202#16 := by decide
/-- F12. -/
theorem test_sneImm_skips : pcAfter (withRegs [(0x3#4, 0x42#8)]) 0x4300 = some 0x204#16 := by decide
/-- F13. -/
theorem test_seReg_skips : pcAfter (withRegs [(0x1#4, 0x07#8), (0x2#4, 0x07#8)]) 0x5120 = some 0x204#16 := by decide
/-- F14. -/
theorem test_seReg_goes_on : pcAfter (withRegs [(0x1#4, 0x07#8), (0x2#4, 0x08#8)]) 0x5120 = some 0x202#16 := by decide
/-- F16. -/
theorem test_sneReg_skips : pcAfter (withRegs [(0x1#4, 0x07#8), (0x2#4, 0x08#8)]) 0x9120 = some 0x204#16 := by decide
/-- F17. -/
theorem test_sneReg_goes_on : pcAfter (withRegs [(0x1#4, 0x07#8), (0x2#4, 0x07#8)]) 0x9120 = some 0x202#16 := by decide
/-- F18, F20: V0 is added, never Vx. -/
theorem test_jpV0_adds_v0 : pcAfter (withRegs [(0x0#4, 0x04#8), (0x3#4, 0x50#8)]) 0xB300 = some 0x304#16 := by decide
/-- F19. -/
theorem test_jpV0_top : pcAfter (withRegs [(0x0#4, 0xFF#8)]) 0xBFFF = some 0x10FE#16 := by decide
/-- A1. -/
theorem test_ldImm : regsAfter (withRegs [(0xF#4, 0x55#8)]) 0x61AB 0x1#4 0xF#4 = some (0xAB#8, 0x55#8) := by decide
/-- A2: no carry flag. -/
theorem test_addImm_wraps : regsAfter (withRegs [(0x1#4, 0xFF#8), (0xF#4, 0x55#8)]) 0x7102 0x1#4 0xF#4 = some (0x01#8, 0x55#8) := by decide
/-- A4. -/
theorem test_ldReg : regsAfter (withRegs [(0x1#4, 0x12#8), (0x2#4, 0x34#8), (0xF#4, 0x55#8)]) 0x8120 0x1#4 0xF#4 = some (0x34#8, 0x55#8) := by decide
/-- A5. -/
theorem test_orReg : regsAfter (withRegs [(0x1#4, 0x0F#8), (0x2#4, 0xF0#8), (0xF#4, 0x55#8)]) 0x8121 0x1#4 0xF#4 = some (0xFF#8, 0x55#8) := by decide
/-- A33. -/
theorem test_orReg_to_vf : regsAfter (withRegs [(0xF#4, 0x55#8), (0x1#4, 0x0F#8)]) 0x8F11 0xF#4 0x1#4 = some (0x5F#8, 0x0F#8) := by decide
/-- A6. -/
theorem test_andReg : regsAfter (withRegs [(0x1#4, 0x3C#8), (0x2#4, 0x0F#8), (0xF#4, 0x55#8)]) 0x8122 0x1#4 0xF#4 = some (0x0C#8, 0x55#8) := by decide
/-- A7. -/
theorem test_xorReg : regsAfter (withRegs [(0x1#4, 0xFF#8), (0x2#4, 0x0F#8), (0xF#4, 0x55#8)]) 0x8123 0x1#4 0xF#4 = some (0xF0#8, 0x55#8) := by decide
/-- A9, S11. -/
theorem test_addReg_carries : regsAfter (withRegs [(0x1#4, 0xFF#8), (0x2#4, 0x01#8)]) 0x8124 0x1#4 0xF#4 = some (0x00#8, 0x01#8) := by decide
/-- A28: the sum is lost. -/
theorem test_addReg_to_vf : regsAfter (withRegs [(0xF#4, 0xFF#8), (0x1#4, 0x01#8)]) 0x8F14 0xF#4 0x1#4 = some (0x01#8, 0x01#8) := by decide
/-- A14: strict. -/
theorem test_subReg_equal : regsAfter (withRegs [(0x1#4, 0x03#8), (0x2#4, 0x03#8), (0xF#4, 0x55#8)]) 0x8125 0x1#4 0xF#4 = some (0x00#8, 0x00#8) := by decide
/-- A15. -/
theorem test_subReg_wraps : regsAfter (withRegs [(0x1#4, 0x01#8), (0x2#4, 0x02#8), (0xF#4, 0x55#8)]) 0x8125 0x1#4 0xF#4 = some (0xFF#8, 0x00#8) := by decide
/-- A19. -/
theorem test_shr_ignores_y : regsAfter (withRegs [(0x1#4, 0x04#8), (0xA#4, 0xFF#8), (0xF#4, 0x55#8)]) 0x81A6 0x1#4 0xF#4 = some (0x02#8, 0x00#8) := by decide
/-- A30. -/
theorem test_shr_to_vf : regsAfter (withRegs [(0xF#4, 0x03#8)]) 0x8F06 0xF#4 0x0#4 = some (0x01#8, 0x00#8) := by decide
/-- A21. -/
theorem test_subn : regsAfter (withRegs [(0x1#4, 0x0A#8), (0x2#4, 0x03#8), (0xF#4, 0x55#8)]) 0x8127 0x1#4 0xF#4 = some (0xF9#8, 0x00#8) := by decide
/-- A31. -/
theorem test_subn_to_vf : regsAfter (withRegs [(0xF#4, 0x10#8), (0x1#4, 0x20#8)]) 0x8F17 0xF#4 0x1#4 = some (0x01#8, 0x20#8) := by decide
/-- A23. -/
theorem test_shl : regsAfter (withRegs [(0x1#4, 0x81#8)]) 0x812E 0x1#4 0xF#4 = some (0x02#8, 0x01#8) := by decide
/-- A32. -/
theorem test_shl_to_vf : regsAfter (withRegs [(0xF#4, 0x80#8)]) 0x8F0E 0xF#4 0x0#4 = some (0x01#8, 0x00#8) := by decide
/-- R133: the draw masked by kk, for every draw. -/
theorem test_rnd_masked_draw : (after (withRegs [(0x1#4, 0x12#8), (0xF#4, 0x55#8)]) 0xC10F).map (·.getV 0x1#4) = some (Config.rnd 0 &&& 0x0F#8) := by rfl
/-- A26: VF is not written; one draw is used. -/
theorem test_rnd_keeps_vf : (after (withRegs [(0x1#4, 0x12#8), (0xF#4, 0x55#8)]) 0xC100).map (fun t => (t.getV vf, t.draws)) = some (0x55#8, 1) := by decide
/-- I1. -/
theorem test_ldI : (after State.reset 0xA2F0).map (·.i) = some 0x2F0#16 := by decide
/-- I2. -/
theorem test_addI_no_flag : (after { (withRegs [(0x1#4, 0x01#8), (0xF#4, 0x55#8)]) with i := 0xFFF#16 } 0xF11E).map (fun t => (t.i, t.getV vf)) = some (0x1000#16, 0x55#8) := by decide
/-- I4. -/
theorem test_addI_overflow : faultAfter { (withRegs [(0x1#4, 0x01#8)]) with i := 0xFFFF#16 } 0xF11E =
    some (some ⟨.indexOverflow 0x10000, 0x200#16, some 0xF11E#16⟩, 0x200#16) := by decide
/-- I6. -/
theorem test_ldF_low_nibble : (after (withRegs [(0x1#4, 0x3A#8)]) 0xF129).map (·.i) = some 0x032#16 := by decide
/-- S8. -/
theorem test_ldB_157 : (after { (withRegs [(0x5#4, 0x9D#8)]) with i := 0x300#16 } 0xF533).map (fun t => ([0, 1, 2].map (fun k => t.byteAt specParams (0x300 + k)), t.i)) =
    some ([0x01#8, 0x05#8, 0x07#8], 0x300#16) := by decide
/-- I11. -/
theorem test_ldB_top : faultAfter { (withRegs [(0x5#4, 0x9D#8)]) with i := 0xFFE#16 } 0xF533 =
    some (some ⟨.addressOutOfRange 0x1000, 0x200#16, some 0xF533#16⟩, 0x200#16) := by decide
/-- I13, I14: x is included, the next byte is not written. -/
theorem test_ldMemVx_range : (after { (withRegs [(0x0#4, 0x01#8), (0x1#4, 0x02#8), (0x2#4, 0x03#8), (0x3#4, 0x04#8)]) with i := 0x300#16 } 0xF255).map (fun t => ([0, 1, 2, 3].map (fun k => t.byteAt specParams (0x300 + k)), t.i)) =
    some ([0x01#8, 0x02#8, 0x03#8, 0x00#8], 0x300#16) := by decide
/-- I17. -/
theorem test_ldMemVx_reserved : faultAfter { (withRegs [(0x0#4, 0x01#8), (0x1#4, 0x02#8), (0x2#4, 0x03#8)]) with i := 0x1FE#16 } 0xF255 =
    some (some ⟨.reservedWrite 0x1FE, 0x200#16, some 0xF255#16⟩, 0x200#16) := by decide
/-- I19: glyph 0, and V5 kept. -/
theorem test_ldVxMem_font : (after { State.reset with i := 0x0#16 } 0xF465).map (fun t => (t.v.toList.take 6, t.i)) =
    some ([0xF0#8, 0x90#8, 0x90#8, 0x90#8, 0xF0#8, 0x00#8], 0#16) := by decide
/-- I20. -/
theorem test_ldVxMem_top : faultAfter { State.reset with i := 0xFFF#16 } 0xF165 =
    some (some ⟨.addressOutOfRange 0x1000, 0x200#16, some 0xF165#16⟩, 0x200#16) := by decide
/-- D1. -/
theorem test_cls : (after { State.reset with disp := Vector.replicate 32 (Vector.replicate 64 true) } 0x00E0).map
    (fun t => (getPixel t.disp 63 31, t.needsRedraw)) = some (false, true) := by decide
/-- D2, S7. -/
theorem test_drw_wraps : (after { withRegs [(0x0#4, 60#8)] with i := 0x300#16, mem := [(0x300, 0xFF#8)] } 0xD011).map
    (fun t => ((List.range 64).filter (fun c => getPixel t.disp (Fin.ofNat 64 c) 0), t.getV vf)) =
    some ([0, 1, 2, 3, 60, 61, 62, 63], 0#8) := by decide
/-- D9 (the row F0 is the font's byte at 0x000). -/
theorem test_drw_collides : (after { State.reset with disp := togglePixel clearDisplay 3 0 } 0xD011).map
    (fun t => (getPixel t.disp 2 0, getPixel t.disp 3 0, getPixel t.disp 4 0, t.getV vf, t.needsRedraw)) =
    some (true, false, false, 1#8, true) := by decide
/-- K1. -/
theorem test_skp_down : pcAfter ((withRegs [(0x1#4, 0x07#8)]).setKey 0x7#4 true) 0xE19E = some 0x204#16 := by decide
/-- K5. -/
theorem test_skp_out_of_range : faultAfter (withRegs [(0x1#4, 0x10#8)]) 0xE19E =
    some (some ⟨.keyIndexOutOfRange 0x10#8, 0x200#16, some 0xE19E#16⟩, 0x200#16) := by decide
/-- K3. -/
theorem test_sknp_up : pcAfter (withRegs [(0x1#4, 0x07#8)]) 0xE1A1 = some 0x204#16 := by decide
/-- K4. -/
theorem test_sknp_down : pcAfter ((withRegs [(0x1#4, 0x07#8)]).setKey 0x7#4 true) 0xE1A1 = some 0x202#16 := by decide
/-- K7. -/
theorem test_ldVxK_spins : (after State.reset 0xF30A).map (fun t => (t.pc, t.awaitingKey)) = some (0x200#16, true) := by decide
/-- K8. -/
theorem test_ldVxK_least : (after ((State.reset.setKey 0x9#4 true).setKey 0x3#4 true) 0xF30A).map (fun t => (t.getV 0x3#4, t.pc, t.awaitingKey)) =
    some (3#8, 0x202#16, false) := by decide
/-- K11. -/
theorem test_ldVxDt : (after { State.reset with dt := 0x3C#8 } 0xF507).map (·.getV 0x5#4) = some 0x3C#8 := by decide
/-- K12. -/
theorem test_ldDtVx : (after (withRegs [(0x5#4, 0x3C#8)]) 0xF515).map (fun t => (t.dt, t.st)) = some (0x3C#8, 0#8) := by decide
/-- K13. -/
theorem test_ldStVx : (after (withRegs [(0x2#4, 0x05#8)]) 0xF218).map (fun t => (t.dt, t.st)) = some (0#8, 5#8) := by decide

/-! ## Fetch, faults and the host's operations -/

/-- One step of a state as it stands. -/
def stepOnce (s : State) : Option State :=
  match step s with
  | .next t => some t
  | .fault _ => none
  | .refused _ => none

/-- M3. -/
theorem test_fetch_top : (stepOnce { State.reset with pc := 0xFFF#16 }).map (fun t => (t.fault, t.pc)) =
    some (some ⟨.addressOutOfRange 0x1000, 0xFFF#16, none⟩, 0xFFF#16) := by decide
/-- F19, its next step. -/
theorem test_fetch_past_memory : (stepOnce { State.reset with pc := 0x10FE#16 }).map (·.fault) =
    some (some ⟨.addressOutOfRange 0x10FE, 0x10FE#16, none⟩) := by decide
/-- M5. -/
theorem test_fetch_odd : (after { State.reset with pc := 0x201#16 } 0x6A11).map (fun t => (t.pc, t.getV 0xA#4)) = some (0x203#16, 0x11#8) := by decide
/-- P7: the two steps of a machine with nothing loaded. -/
theorem test_step_without_load : (stepOnce State.reset).map (fun t => (t.pc, (stepOnce t).map (·.fault))) =
    some (0#16, some (some ⟨.decodeFailure 0xF090#16, 0#16, some 0xF090#16⟩)) := by decide
/-- K14. -/
theorem test_tick_floors : ({ State.reset with dt := 2#8 }.tickTimers.dt, { State.reset with dt := 2#8 }.tickTimers.st) = (1#8, 0#8) := by decide
/-- S10, its first two bytes. -/
theorem test_load_verbatim : (State.reset.load specParams [0x60#8, 0x05#8]).map (fun t => (t.byteAt specParams 0x200, t.byteAt specParams 0x201,
    t.byteAt specParams 0x202)) = .ok (0x60#8, 0x05#8, 0#8) := by decide
/-- R234. -/
theorem test_tone : ({ State.reset with st := 1#8 }.emitTone, State.reset.emitTone) = (true, false) := by decide

/-! ## Witnesses: concrete states and operands that meet the hypotheses of each statement, at the ends of their ranges -/

/-- Reset with I set. -/
def atI (i : Word) : State := { State.reset with i := i }

/-- Reset with PC set. -/
def atPc (pc : Word) : State := { State.reset with pc := pc }

/-- Reset with a number of stack entries in use. -/
def withSp (sp : Fin 17) : State := { State.reset with sp := sp }

/-- A machine frozen by a StackUnderflow at 0x200. -/
def frozen : State := State.reset.takeFault .stackUnderflow (some 0x00EE#16)

/-- Reset with the word of LD VA, 0x2F at PC. -/
def ready : State := State.reset.withFetchWord 16 0x6A2F

theorem witness_DecodeOfEncodeIsIdentity : (Instr.sys 0x0E1#12).wellFormed = true := by decide
theorem witness_EncodeOfDecodeIsIdentity : decode 0x8AB7#16 = .ok (.subn 0xA#4 0xB#4) := by decide
theorem witness_DecoderAgreesWithOpcodeMap_row : decode 0x00EE#16 = .ok .ret := by decide
theorem witness_DecoderAgreesWithOpcodeMap_match :
    opcodeRow 0x00EE#16 = some 2 ∧ opcodeRow 0x00EF#16 = some 3 ∧ opcodeRow 0xFF65#16 = some 35 := by decide
theorem witness_DecoderAgreesWithOpcodeMap_none : opcodeRow 0x5121#16 = none := by decide
theorem witness_DecoderAgreesWithOpcodeMap_overlap :
    (1, 0x00E0#16, 0xFFFF#16) ∈ opcodeMap ∧ (3, 0x0000#16, 0xF000#16) ∈ opcodeMap ∧
      0x00E0#16 &&& 0xFFFF#16 = 0x00E0#16 ∧ 0x00E0#16 &&& 0xF000#16 = 0x0000#16 := by decide
theorem witness_FamilyZeroNeverFails : opN1 0x00E0#16 = 0x0#4 ∧ opN1 0x00EE#16 = 0x0#4 ∧ opN1 0x0FFF#16 = 0x0#4 := by decide

theorem witness_FetchIsBigEndian :
    (atPc 0xFFE#16).pc.toNat < 0xFFF ∧ (atPc 0xFFF#16).pc.toNat = 0xFFF ∧ 0x1000 ≤ (atPc 0x1000#16).pc.toNat := by decide
theorem witness_StepRunsDecodedInstruction :
    ready.fault = none ∧ ready.pc.toNat < 0xFFF ∧ decode ready.wordAtPc = .ok (.ldImm 0xA#4 0x2F#8) := by decide
theorem witness_StepRunsDecodedInstruction_top :
    ((atPc 0xFFE#16).withFetchWord 16 0x1FFE).fault = none ∧ ((atPc 0xFFE#16).withFetchWord 16 0x1FFE).pc.toNat < 0xFFF ∧
      decode ((atPc 0xFFE#16).withFetchWord 16 0x1FFE).wordAtPc = .ok (.jp 0xFFE#12) := by decide
theorem witness_FetchAndDecodeFaultsAreTaken_decode :
    (atPc 0x000#16).fault = none ∧ (atPc 0x000#16).pc.toNat < 0xFFF ∧
      decode (atPc 0x000#16).wordAtPc = .error (.decodeFailure (atPc 0x000#16).wordAtPc) := by decide
theorem witness_FetchAndDecodeFaultsAreTaken_fetch :
    (atPc 0xFFF#16).fault = none ∧ (atPc 0xFFF#16).pc.toNat = 0xFFF ∧ (atPc 0x1000#16).fault = none ∧
      0x1000 ≤ (atPc 0x1000#16).pc.toNat := by decide
theorem witness_FaultedMachineIsFrozen :
    frozen.fault = some ⟨.stackUnderflow, 0x200#16, some 0x00EE#16⟩ ∧ HostOp.ackRedraw ≠ .construct ∧
      frozen.perform .ackRedraw = .next (frozen.ackRedraw, .ok) := ⟨rfl, by decide, rfl⟩
theorem witness_FaultingStepDiscardsEveryWrite :
    (atPc 0xFFF#16).fault = none ∧
      step (atPc 0xFFF#16) = .next ((atPc 0xFFF#16).takeFault (.addressOutOfRange 0x1000) none) ∧
      ((atPc 0xFFF#16).takeFault (.addressOutOfRange 0x1000) none).fault =
        some ⟨.addressOutOfRange 0x1000, 0xFFF#16, none⟩ := ⟨rfl, rfl, rfl⟩
theorem witness_FaultingStepDiscardsEveryWrite_opcode :
    (State.reset.withFetchWord 16 0x00EE).fault = none ∧
      step (State.reset.withFetchWord 16 0x00EE) =
        .next ((State.reset.withFetchWord 16 0x00EE).takeFault .stackUnderflow (some 0x00EE#16)) ∧
      ((State.reset.withFetchWord 16 0x00EE).takeFault .stackUnderflow (some 0x00EE#16)).fault =
        some ⟨.stackUnderflow, 0x200#16, some 0x00EE#16⟩ := ⟨rfl, rfl, rfl⟩
theorem witness_PlacedWordRunsNext : decode 0x6A2F#16 = .ok (.ldImm 0xA#4 0x2F#8) := by decide

theorem witness_JumpsReachTheirTarget : 0x0E1#12 ≠ 0x0E0#12 ∧ 0x0E1#12 ≠ 0x0EE#12 := by decide
theorem witness_CallPushesReturnAddress : (withSp 0).sp.val < 16 ∧ (withSp 15).sp.val < 16 ∧ (withSp 16).sp.val = 16 := by decide
theorem witness_ReturnPopsReturnAddress : (withSp 1).sp.val ≠ 0 ∧ (withSp 16).sp.val ≠ 0 ∧ (withSp 0).sp.val = 0 := by decide

theorem witness_RegisterSkips : 0x1#4 ≠ 0x0#4 := by decide

theorem witness_AddRegistersSetsCarry : 0x0#4 ≠ vf ∧ 0xE#4 ≠ vf := by decide
theorem witness_SubtractionsSetStrictFlag : 0x1#4 ≠ vf := by decide
theorem witness_ShiftsMoveVxByOneBit : 0x4#4 ≠ vf ∧ 6 < 7 := by decide
theorem witness_RandomIsMaskedDraw : (0x0F#8).getLsbD 4 = false := by decide

theorem witness_AddIndexKeepsVf :
    (atI 0xFFFF#16).i.toNat + ((atI 0xFFFF#16).getV 0x1#4).toNat ≤ 0xFFFF ∧
      0xFFFF < ((atI 0xFFFF#16).setV 0x1#4 1#8).i.toNat + (((atI 0xFFFF#16).setV 0x1#4 1#8).getV 0x1#4).toNat := by decide
theorem witness_GlyphAddressOfLowNibble :
    specParams.valid = true ∧ ({ specParams with fontBase := 0x1B0#12 } : Params).valid = true := by decide
theorem witness_GlyphBytesAreResident : ({ specParams with fontBase := 0x1B0#12 } : Params).valid = true ∧ 4 < 5 := by decide
theorem witness_WriteChecksThenStores :
    0x1000 ≤ 0x1000 ∧ 0x1FF < 0x200 ∧ specParams.lowWritePolicy = .fault ∧
      (0x200 < 0x1000 ∧ (0x200 ≤ 0x200 ∨ specParams.lowWritePolicy = .allow)) ∧
      (0 < 0x1000 ∧ (0x200 ≤ 0 ∨ ({ specParams with lowWritePolicy := .allow } : Params).lowWritePolicy = .allow)) ∧
      State.reset.mem.wf specParams = true := by decide
theorem witness_BcdStoreWritesDigits :
    (0x200 ≤ (atI 0x200#16).indexAddr ∧ (atI 0x200#16).indexAddr + 2 < 0x1000) ∧
      (0x200 ≤ (atI 0xFFD#16).indexAddr ∧ (atI 0xFFD#16).indexAddr + 2 < 0x1000) ∧
      (atI 0x1FF#16).indexAddr < 0x200 ∧ 0x1000 ≤ (atI 0xFFE#16).indexAddr + 2 := by decide
theorem witness_BlockStoreWritesRange :
    (0x200 ≤ (atI 0x200#16).indexAddr ∧ (atI 0x200#16).indexAddr + (0xF#4).toNat < 0x1000) ∧
      (0x200 ≤ (atI 0xFF0#16).indexAddr ∧ (atI 0xFF0#16).indexAddr + (0xF#4).toNat < 0x1000) ∧
      (0xF#4).toNat ≤ (0xF#4).toNat ∧ (atI 0x1FF#16).indexAddr < 0x200 ∧
      0x1000 ≤ (atI 0xFF1#16).indexAddr + (0xF#4).toNat := by decide
theorem witness_BlockLoadReadsRange :
    (atI 0x000#16).indexAddr + (0xF#4).toNat < 0x1000 ∧ (atI 0xFF0#16).indexAddr + (0xE#4).toNat < 0x1000 ∧
      (0xE#4).toNat ≤ (0xE#4).toNat ∧ (0xE#4).toNat < (0xF#4).toNat ∧
      0x1000 ≤ (atI 0xFF1#16).indexAddr + (0xF#4).toNat := by decide
theorem witness_StoreThenLoadRestoresRegisters :
    0x200 ≤ (atI 0xFF0#16).indexAddr ∧ (atI 0xFF0#16).indexAddr + (0xF#4).toNat < 0x1000 ∧ (0xF#4).toNat ≤ (0xF#4).toNat := by
  decide

theorem witness_DrawTogglesExactlyTheSprite :
    (0x0#4 = 0#4 ∨ (atI 0xFFFF#16).indexAddr + (0x0#4).toNat ≤ 0x1000) ∧
      (0xF#4 = 0#4 ∨ (atI 0xFF1#16).indexAddr + (0xF#4).toNat ≤ 0x1000) ∧
      (0x2#4 ≠ 0#4 ∧ 0x1000 < (atI 0xFFF#16).indexAddr + (0x2#4).toNat) := by decide
theorem witness_DrawTwiceRestoresScreen : 0x1#4 = 0#4 ∨ (atI 0x000#16).indexAddr + (0x1#4).toNat ≤ 0x1000 := by decide
/-- The machine after a `.next`, else the machine given. -/
def nextOr (s : State) (r : Host.Outcome State Fault Refusal) : State :=
  match r with
  | .next t => t
  | .fault _ => s
  | .refused _ => s
/-- The first draw on a clear screen meets no set pixel, and the second collides (S6). -/
theorem witness_DrawTwiceRestoresScreen_clear :
    ((nextOr State.reset (exec (.drw 0x0#4 0x0#4 0x1#4) (atI 0x000#16))).getV vf = 0#8) ∧
      (nextOr State.reset (exec (.drw 0x0#4 0x0#4 0x1#4)
        (nextOr State.reset (exec (.drw 0x0#4 0x0#4 0x1#4) (atI 0x000#16))))).getV vf = 1#8 := by decide
/-- R171's pseudocode on a set pixel: the first draw collides and clears it, the second does not collide (log entry 24). -/
theorem witness_DrawTwiceRestoresScreen_set :
    let s := { atI 0x300#16 with mem := [(0x300, 0x10#8)], disp := togglePixel clearDisplay 3 0 }
    (nextOr s (exec (.drw 0x0#4 0x0#4 0x1#4) s)).getV vf = 1#8 ∧
      (nextOr s (exec (.drw 0x0#4 0x0#4 0x1#4) (nextOr s (exec (.drw 0x0#4 0x0#4 0x1#4) s)))).getV vf = 0#8 := by decide

theorem witness_KeySkips :
    ((withRegs [(0x1#4, 0x0F#8)]).getV 0x1#4).toNat = (0xF#4).toNat ∧
      0xF < ((withRegs [(0x1#4, 0x10#8)]).getV 0x1#4).toNat := by decide
theorem witness_WaitForKeySpinsOrStoresLeast :
    (((State.reset.setKey 0x9#4 true).setKey 0x3#4 true).key 0x3#4 = true ∧
      ∀ j : Nibble, j.toNat < (0x3#4).toNat → ((State.reset.setKey 0x9#4 true).setKey 0x3#4 true).key j = false) ∧
      ∀ k : Nibble, State.reset.key k = false := by decide

theorem witness_TickLowersBothTimers : { State.reset with dt := 0xFF#8, st := 0#8 }.fault = none := by decide
theorem witness_LoadCopiesRomVerbatim :
    frozen.fault ≠ none ∧ State.reset.fault = none ∧ 3584 < (List.replicate 3585 0#8).length ∧
      (List.replicate 3584 0#8).length ≤ 3584 ∧ 3583 < (List.replicate 3584 0#8).length := by
  simp only [List.length_replicate]
  decide
theorem witness_SetKeyAndAckRedraw : 0x1#4 ≠ 0x2#4 := by decide
theorem witness_ConstructLeavesResetState :
    79 < specParams.fontBase.toNat + 80 ∧ (80 < specParams.fontBase.toNat ∨ specParams.fontBase.toNat + 80 ≤ 80) := by decide
theorem witness_LoadedProgramStartsAtItsFirstWord :
    (List.replicate 3582 0#8).length ≤ 3582 ∧ decode (wordOfBytes 0x6A#8 0x2F#8) = .ok (.ldImm 0xA#4 0x2F#8) := by
  simp only [List.length_replicate]
  decide

/-- A machine with one register set and one byte stored meets the invariant. -/
def busy : State := { withRegs [(0xA#4, 0x2F#8)] with mem := [(0x200, 0x13#8)], pc := 0x202#16 }

theorem busy_inv : busy.Inv := by
  refine ⟨rfl, fun a ha => ?_, by decide, by decide⟩
  have h : ¬ 0x200 = a := by omega
  simp [busy, State.byteAt, memLookup, h]

theorem witness_StepKeepsInvariant : busy.Inv ∧ step busy = .next (busy.advance.setPc 0x000#16) := ⟨busy_inv, rfl⟩
theorem witness_HostOperationsKeepInvariant : busy.Inv ∧ busy.perform .tickTimers = .next (busy.tickTimers, .ok) :=
  ⟨busy_inv, rfl⟩
theorem witness_FontIsNeverMutated : 0 < 0x200 ∧ 0x1FF < 0x200 := by decide

theorem witness_PcAfterEachInstruction :
    (State.reset.fault = none ∧ exec (.jp 0x300#12) State.reset = .next (State.reset.advance.setPc 0x300#16) ∧
      (State.reset.advance.setPc 0x300#16).fault = none) ∧
      (exec .ret State.reset = .next frozen ∧ frozen.fault ≠ none) := ⟨⟨rfl, rfl, rfl⟩, rfl, by decide⟩
theorem witness_VfIsWrittenOnlyByItsInstructions :
    exec (.ldImm vf 1#8) State.reset = .next (State.reset.advance.setV vf 1#8) ∧
      (State.reset.advance.setV vf 1#8).getV vf ≠ State.reset.getV vf := ⟨rfl, by decide⟩
theorem witness_ScreenAndMemoryWriters_screen :
    exec .cls { State.reset with disp := togglePixel clearDisplay 0 0 } =
        .next { State.reset.advance with disp := clearDisplay, needsRedraw := true } ∧
      clearDisplay ≠ togglePixel clearDisplay 0 0 := ⟨rfl, by decide⟩
theorem witness_ScreenAndMemoryWriters_memory :
    exec (.ldB 0x5#4) ((atI 0x300#16).setV 0x5#4 157#8) =
        .next { ((atI 0x300#16).setV 0x5#4 157#8).advance with mem := [(0x300, 1#8), (0x301, 5#8), (0x302, 7#8)] } ∧
      [(0x300, 1#8), (0x301, 5#8), (0x302, 7#8)] ≠ (atI 0x300#16).mem := ⟨rfl, by decide⟩
theorem witness_IndexStackTimerWriters_index :
    exec (.ldI 0x2F0#12) State.reset = .next { State.reset.advance with i := 0x2F0#16 } ∧ 0x2F0#16 ≠ State.reset.i :=
  ⟨rfl, by decide⟩
theorem witness_IndexStackTimerWriters_stack :
    exec (.call 0x300#12) State.reset = .next
        ({ State.reset.advance with stack := State.reset.stack.set 0 0x202#16, sp := 1 }.setPc 0x300#16) ∧
      State.reset.stack.set 0 0x202#16 ≠ State.reset.stack ∧ (1 : Fin 17) ≠ State.reset.sp := ⟨rfl, by decide, by decide⟩
theorem witness_IndexStackTimerWriters_timers :
    (exec (.ldDtVx 0x5#4) (withRegs [(0x5#4, 3#8)]) = .next { (withRegs [(0x5#4, 3#8)]).advance with dt := 3#8 } ∧
      3#8 ≠ State.reset.dt) ∧
    (exec (.ldStVx 0x5#4) (withRegs [(0x5#4, 3#8)]) = .next { (withRegs [(0x5#4, 3#8)]).advance with st := 3#8 } ∧
      3#8 ≠ State.reset.st) := ⟨⟨rfl, by decide⟩, rfl, by decide⟩
theorem witness_InterfaceFlagsAfterEachInstruction :
    State.reset.fault = none ∧
      exec (.ldVxK 0x3#4) State.reset = .next { State.reset with awaitingKey := true } ∧
      ({ State.reset with awaitingKey := true } : State).fault = none := ⟨rfl, rfl, rfl⟩
theorem witness_UnreadStateDoesNotMatter :
    exec (.ldI 0x2F0#12) State.reset = .next { State.reset.advance with i := 0x2F0#16 } ∧
      (∀ x, Instr.ldI 0x2F0#12 ≠ .ldStVx x) ∧
      (∀ x, Instr.ldI 0x2F0#12 ≠ .skp x ∧ Instr.ldI 0x2F0#12 ≠ .sknp x ∧ Instr.ldI 0x2F0#12 ≠ .ldVxK x) ∧
      (Instr.ldI 0x2F0#12 ≠ .cls ∧ ∀ x y n, Instr.ldI 0x2F0#12 ≠ .drw x y n) :=
  ⟨rfl, by simp, by simp, by simp⟩
theorem witness_SelfJumpStopsTheRun : (State.reset.withFetchWord 16 0x1200).StoppedAtSelfJump :=
  ⟨rfl, by decide, 0x200#12, by decide, by decide⟩

end Sys2Proof.Tests
end

section
/-! SUPPORT. Said once for the whole instruction set: what each instruction leaves when it raises no fault (`Effect`), and
that every execution answers such a state or takes a fault (`exec_cases`). The frame of every instruction, field by field,
follows by cases on `Effect`. -/

namespace Sys2Proof.Machine

/-- The states an instruction can leave without a fault, one constructor per instruction (two for LD Vx, K, which stores a
key or waits). Of a draw it says what it writes and where the rows are, not the pixels (`drawSprite_ok` says those). -/
inductive Effect (s : State) : Instr → State → Prop where
  | cls : Effect s .cls { s.advance with disp := clearDisplay, needsRedraw := true }
  | ret (n : Fin 17) (w : Word) (hn : n.val + 1 = s.sp.val) (hw : s.stack[s.sp.val - 1]? = some w) :
      Effect s .ret { s.advance with sp := n, pc := w }
  | sys (nnn : Addr12) : Effect s (.sys nnn) (s.advance.setPc (zext16 nnn))
  | jp (nnn : Addr12) : Effect s (.jp nnn) (s.advance.setPc (zext16 nnn))
  | call (nnn : Addr12) (n : Fin 17) (hlt : s.sp.val < 16) (hn : n.val = s.sp.val + 1) :
      Effect s (.call nnn)
        ({ s.advance with stack := s.stack.set s.sp.val (s.pc + 2#16) hlt, sp := n }.setPc (zext16 nnn))
  | seImm (x : Nibble) (kk : Byte) : Effect s (.seImm x kk) (s.advance.skipIf (s.getV x == kk))
  | sneImm (x : Nibble) (kk : Byte) : Effect s (.sneImm x kk) (s.advance.skipIf (s.getV x != kk))
  | seReg (x y : Nibble) : Effect s (.seReg x y) (s.advance.skipIf (s.getV x == s.getV y))
  | sneReg (x y : Nibble) : Effect s (.sneReg x y) (s.advance.skipIf (s.getV x != s.getV y))
  | jpV0 (nnn : Addr12) : Effect s (.jpV0 nnn) (s.advance.setPc (jumpV0Target nnn (s.getV 0x0#4)))
  | ldImm (x : Nibble) (kk : Byte) : Effect s (.ldImm x kk) (s.advance.setV x kk)
  | addImm (x : Nibble) (kk : Byte) : Effect s (.addImm x kk) (s.advance.setV x (addResult (s.getV x) kk))
  | ldReg (x y : Nibble) : Effect s (.ldReg x y) (s.advance.setV x (s.getV y))
  | orReg (x y : Nibble) : Effect s (.orReg x y) (s.advance.setV x (s.getV x ||| s.getV y))
  | andReg (x y : Nibble) : Effect s (.andReg x y) (s.advance.setV x (s.getV x &&& s.getV y))
  | xorReg (x y : Nibble) : Effect s (.xorReg x y) (s.advance.setV x (s.getV x ^^^ s.getV y))
  | addReg (x y : Nibble) : Effect s (.addReg x y)
      (s.advance.setVFlag x (addResult (s.getV x) (s.getV y)) (addCarry (s.getV x) (s.getV y)))
  | subReg (x y : Nibble) : Effect s (.subReg x y)
      (s.advance.setVFlag x (subResult (s.getV x) (s.getV y)) (subFlag (s.getV x) (s.getV y)))
  | shr (x y : Nibble) : Effect s (.shr x y) (s.advance.setVFlag x (shrResult (s.getV x)) (shrFlag (s.getV x)))
  | subn (x y : Nibble) : Effect s (.subn x y)
      (s.advance.setVFlag x (subResult (s.getV y) (s.getV x)) (subFlag (s.getV y) (s.getV x)))
  | shl (x y : Nibble) : Effect s (.shl x y) (s.advance.setVFlag x (shlResult (s.getV x)) (shlFlag (s.getV x)))
  | rnd (x : Nibble) (kk : Byte) : Effect s (.rnd x kk)
      { s.advance.setV x (Config.rnd s.draws &&& kk) with draws := s.draws + 1 }
  | drw (x y n : Nibble) (f : Byte) (d : Display) (hrows : n.toNat = 0 ∨ s.indexAddr + n.toNat ≤ memSize) :
      Effect s (.drw x y n) { (s.advance.setV vf 0#8).setV vf f with disp := d, needsRedraw := true }
  | skp (x k : Nibble) (hk : k.toNat = (s.getV x).toNat) : Effect s (.skp x) (s.advance.skipIf (s.key k))
  | sknp (x k : Nibble) (hk : k.toNat = (s.getV x).toNat) : Effect s (.sknp x) (s.advance.skipIf (!s.key k))
  | ldVxDt (x : Nibble) : Effect s (.ldVxDt x) (s.advance.setV x s.dt)
  | ldVxKStore (x k : Nibble) (hk : s.key k = true) : Effect s (.ldVxK x) (s.advance.setV x (BitVec.ofNat 8 k.toNat))
  | ldVxKWait (x : Nibble) (hk : ∀ k : Nibble, s.key k = false) : Effect s (.ldVxK x) { s with awaitingKey := true }
  | ldDtVx (x : Nibble) : Effect s (.ldDtVx x) { s.advance with dt := s.getV x }
  | ldStVx (x : Nibble) : Effect s (.ldStVx x) { s.advance with st := s.getV x }
  | ldI (nnn : Addr12) : Effect s (.ldI nnn) { s.advance with i := zext16 nnn }
  | addI (x : Nibble) (hsum : s.i.toNat + (s.getV x).toNat ≤ 0xFFFF) :
      Effect s (.addI x) { s.advance with i := BitVec.ofNat 16 (s.i.toNat + (s.getV x).toNat) }
  | ldF (x : Nibble) : Effect s (.ldF x) { s.advance with i := glyphAddress specParams (s.getV x) }
  | ldB (x : Nibble) (hlo : programBase ≤ s.indexAddr) (hhi : s.indexAddr + 3 ≤ memSize) :
      Effect s (.ldB x)
        { s.advance with mem := memStoreAll specParams s.mem s.indexAddr (bcdDigits (s.getV x)) }
  | ldMemVx (x : Nibble) (hlo : programBase ≤ s.indexAddr) (hhi : s.indexAddr + (x.toNat + 1) ≤ memSize) :
      Effect s (.ldMemVx x) { s.advance with mem := memStoreAll specParams s.mem s.indexAddr (s.regRange x) }
  | ldVxMem (x : Nibble) (hhi : s.indexAddr + (x.toNat + 1) ≤ memSize) :
      Effect s (.ldVxMem x)
        (s.advance.setVs ((List.range (x.toNat + 1)).map (fun k => s.byteAt specParams (s.indexAddr + k))))

variable {i : Instr} {s t : State}

/-! ### Inversion of `exec` -/

theorem except_map_eq_ok {ε α β : Type} {f : α → β} {r : Except ε α} {b : β} (h : r.map f = .ok b) :
    ∃ a, r = .ok a ∧ b = f a := by
  cases r with
  | ok a => exact ⟨a, rfl, (Except.ok.inj h).symm⟩
  | error e => cases h

/-- An instruction ended by `commit` has an effect or takes a fault, once the result it commits is known to be an
effect. -/
theorem effect_or_fault_of_commit {r : Except Fault State} (h : commit i s r = .next t)
    (hr : ∀ u, r = .ok u → Effect s i u) : Effect s i t ∨ ∃ k, t = s.takeFault k (some (encode i)) :=
  (commit_cases h).imp (hr t) fun ⟨k, _, ht⟩ => ⟨k, ht⟩

/-- Either no key is down and there is no least one, or the least key down is one of the sixteen. -/
theorem leastKeyDown_cases (s : State) :
    (s.leastKeyDown = none ∧ ∀ k : Nibble, s.key k = false) ∨
      ∃ k : Nibble, s.leastKeyDown = some k.toNat ∧ s.key k = true := by
  cases h : s.leastKeyDown with
  | none =>
    rw [State.leastKeyDown, List.findIdx?_eq_none_iff] at h
    exact .inl ⟨rfl, fun k => h _ (by simp)⟩
  | some j =>
    have hj : (BitVec.ofNat 4 j).toNat = j := Nat.mod_eq_of_lt (leastKeyDown_lt h)
    rw [State.leastKeyDown, List.findIdx?_eq_some_iff_getElem] at h
    obtain ⟨_, hdown, _⟩ := h
    exact .inr ⟨BitVec.ofNat 4 j, by rw [hj], by simpa [State.key, hj] using hdown⟩

/-- The spec's policy lets no store begin below 0x200 (R55, D2). -/
theorem programBase_le_of_policy {a : Nat} (h : programBase ≤ a ∨ specParams.lowWritePolicy ≠ .fault) :
    programBase ≤ a :=
  h.resolve_right fun hne => hne rfl

/-- Rewinding PC after the advance leaves it at pc0 (R195). -/
theorem advance_rewind (s : State) :
    { s.advance.setPc (s.advance.pc - 2#16) with awaitingKey := true } = { s with awaitingKey := true } := by
  simp only [State.setPc, State.advance, BitVec.add_sub_cancel]

/-- Everything an instruction can do: it leaves its effect, or it takes a fault on the state before it. -/
theorem exec_cases (h : exec i s = .next t) :
    Effect s i t ∨ ∃ k, t = s.takeFault k (some (encode i)) := by
  cases i with
  | ret =>
    refine effect_or_fault_of_commit h fun u hu => ?_
    obtain ⟨_, n, w, hn, hw, rfl⟩ := popPc_cases hu
    exact .ret n w hn hw
  | call nnn =>
    refine effect_or_fault_of_commit h fun u hu => ?_
    obtain ⟨a, ha, rfl⟩ := except_map_eq_ok hu
    obtain ⟨hlt, n, hn, rfl⟩ := push_cases ha
    exact Effect.call (s := s) nnn n hlt hn
  | drw x y n =>
    refine effect_or_fault_of_commit h fun u hu => ?_
    obtain ⟨hrows, f, d, rfl⟩ := drawSprite_cases hu
    exact .drw x y n f d hrows
  | skp x =>
    refine effect_or_fault_of_commit h fun u hu => ?_
    obtain ⟨d, hd, rfl⟩ := except_map_eq_ok hu
    obtain ⟨k, hk, rfl⟩ := keyOf_cases hd
    exact .skp x k hk
  | sknp x =>
    refine effect_or_fault_of_commit h fun u hu => ?_
    obtain ⟨d, hd, rfl⟩ := except_map_eq_ok hu
    obtain ⟨k, hk, rfl⟩ := keyOf_cases hd
    exact .sknp x k hk
  | addI x =>
    refine effect_or_fault_of_commit h fun u hu => ?_
    obtain ⟨hsum, rfl⟩ := addIndex_cases hu
    exact .addI x hsum
  | ldB x =>
    refine effect_or_fault_of_commit h fun u hu => ?_
    obtain ⟨rfl, hhi, hlo⟩ := bcdStore_cases hu
    exact .ldB x (programBase_le_of_policy hlo) hhi
  | ldMemVx x =>
    refine effect_or_fault_of_commit h fun u hu => ?_
    obtain ⟨rfl, hhi, hlo⟩ := blockStore_cases hu
    exact .ldMemVx x (programBase_le_of_policy hlo) hhi
  | ldVxMem x =>
    refine effect_or_fault_of_commit h fun u hu => ?_
    obtain ⟨hhi, rfl⟩ := blockLoad_cases hu
    exact .ldVxMem x hhi
  | ldVxK x =>
    change execLdVxK x s = .next t at h
    unfold execLdVxK at h
    rcases leastKeyDown_cases s with ⟨hl, hk⟩ | ⟨k, hl, hk⟩ <;> rw [hl] at h <;> cases h
    · rw [advance_rewind]
      exact .inl (.ldVxKWait x hk)
    · exact .inl (.ldVxKStore x k hk)
  | _ =>
    cases h
    exact .inl (by constructor)

/-- An instruction ended by `commit` answers a next state. -/
theorem commit_next (i : Instr) (s : State) (r : Except Fault State) : ∃ t, commit i s r = .next t := by
  cases r with
  | ok t => exact ⟨t, rfl⟩
  | error k => exact ⟨_, rfl⟩

/-- No instruction of the model stops with a fault or refusal outcome. -/
theorem exec_next (i : Instr) (s : State) : ∃ t, exec i s = .next t := by
  cases i with
  | ret | call nnn | drw x y n | skp x | sknp x | addI x | ldB x | ldMemVx x | ldVxMem x => exact commit_next _ _ _
  | ldVxK x =>
    change ∃ t, execLdVxK x s = .next t
    unfold execLdVxK
    cases s.leastKeyDown <;> exact ⟨_, rfl⟩
  | _ => exact ⟨_, rfl⟩

/-- Everything a step can do: nothing, take a fault, or the effect of an instruction fetched inside memory. -/
theorem step_cases (h : step s = .next t) :
    t = s ∨ (∃ k o, t = s.takeFault k o) ∨ ∃ i, s.pc.toNat + 1 < memSize ∧ Effect s i t := by
  unfold step at h
  cases hi : s.issue specParams with
  | error u =>
    rw [hi] at h
    cases h
    rcases issue_error hi with ⟨_, rfl⟩ | ⟨_, hk⟩
    · exact .inl rfl
    · exact .inr (.inl hk)
  | ok i =>
    rw [hi] at h
    obtain ⟨_, hpc, _⟩ := issue_ok hi
    rcases exec_cases h with he | ⟨k, rfl⟩
    · exact .inr (.inr ⟨i, hpc, he⟩)
    · exact .inr (.inl ⟨k, _, rfl⟩)

theorem step_next (s : State) : ∃ t, step s = .next t := by
  unfold step
  cases s.issue specParams with
  | error u => exact ⟨u, rfl⟩
  | ok i => exact exec_next i s

end Sys2Proof.Machine
end

section
/-! SUPPORT. The frame of every instruction, field by field (spec rules R21, R24 to R34, R50): a field an instruction
without a fault does not write is as before, and the instructions that write it are named. -/

namespace Sys2Proof.Machine

variable {i : Instr} {s t : State}

/-! ### Registers and PC -/

theorem eq_of_getV_setV_ne {x y : Nibble} {b : Byte} (h : (s.setV x b).getV y ≠ s.getV y) : x = y := by
  by_contra hne
  exact h (s.getV_setV_of_ne b hne)

/-- A block load changes VF only when it loads all sixteen registers. -/
theorem eq_vf_of_getV_setVs_ne {x : Nibble} {f : Nat → Byte}
    (h : (s.setVs ((List.range (x.toNat + 1)).map f)).getV vf ≠ s.getV vf) : x = vf := by
  by_contra hne
  have hx : x.toNat ≠ 15 := fun h15 => hne (BitVec.eq_of_toNat_eq h15)
  have hlen : ((List.range (x.toNat + 1)).map f).length ≤ vf.toNat := by
    have := x.isLt
    simp only [List.length_map, List.length_range, show vf.toNat = 15 from rfl]
    omega
  exact h (by rw [State.getV_setVs, List.getElem?_eq_none hlen, Option.getD_none])

/-- A skip passes over one word (R109). -/
theorem pc_skipIf_advance (s : State) (c : Bool) :
    (s.advance.skipIf c).pc = if c then s.pc + 4#16 else s.pc + 2#16 := by
  cases c with
  | true => exact BitVec.add_assoc s.pc 2#16 2#16
  | false => rfl

/-- The advance from a PC that a fetch accepts stays in memory or just past it (R25). -/
theorem toNat_pc_advance (h : s.pc.toNat + 1 < memSize) : (s.pc + 2#16).toNat = s.pc.toNat + 2 := by
  unfold memSize at h
  rw [BitVec.toNat_add, show (2#16).toNat = 2 from rfl]
  omega

theorem pc_skipIf_advance_le (c : Bool) (h : s.pc.toNat + 1 < memSize) :
    (s.advance.skipIf c).pc.toNat ≤ 0x10FE := by
  unfold memSize at h
  rw [pc_skipIf_advance]
  split <;> simp only [BitVec.toNat_add, BitVec.toNat_ofNat] <;> omega

namespace Effect

/-! ### The fields in turn -/

theorem fault_eq (h : Effect s i t) : t.fault = s.fault := by
  cases h <;> simp

theorem keys_eq (h : Effect s i t) : t.keys = s.keys := by
  cases h <;> simp

theorem dt_cases (h : Effect s i t) : t.dt = s.dt ∨ ∃ x, i = .ldDtVx x := by
  cases h with
  | ldDtVx x => exact .inr ⟨x, rfl⟩
  | _ => exact .inl (by simp)

theorem st_cases (h : Effect s i t) : t.st = s.st ∨ ∃ x, i = .ldStVx x := by
  cases h with
  | ldStVx x => exact .inr ⟨x, rfl⟩
  | _ => exact .inl (by simp)

theorem i_cases (h : Effect s i t) : t.i = s.i ∨ (∃ nnn, i = .ldI nnn) ∨ ∃ x, i = .addI x ∨ i = .ldF x := by
  cases h with
  | ldI nnn => exact .inr (.inl ⟨nnn, rfl⟩)
  | addI x => exact .inr (.inr ⟨x, .inl rfl⟩)
  | ldF x => exact .inr (.inr ⟨x, .inr rfl⟩)
  | _ => exact .inl (by simp)

theorem sp_cases (h : Effect s i t) : t.sp = s.sp ∨ i = .ret ∨ ∃ nnn, i = .call nnn := by
  cases h with
  | ret => exact .inr (.inl rfl)
  | call nnn => exact .inr (.inr ⟨nnn, rfl⟩)
  | _ => exact .inl (by simp)

/-- Only CALL writes the stack, and the entry it writes is pc0 + 2 (R27, R103). -/
theorem stack_cases (h : Effect s i t) :
    t.stack = s.stack ∨ (∃ nnn, i = .call nnn) ∧
      ∃ hlt : s.sp.val < 16, t.stack = s.stack.set s.sp.val (s.pc + 2#16) hlt := by
  cases h with
  | call nnn n hlt => exact .inr ⟨⟨nnn, rfl⟩, hlt, rfl⟩
  | _ => exact .inl (by simp)

/-- Only LD B and LD [I] write memory, and they write bytes of program memory (R50, R55, D2). -/
theorem mem_cases (h : Effect s i t) :
    t.mem = s.mem ∨ (∃ x, i = .ldB x ∨ i = .ldMemVx x) ∧
      ∃ (a : Nat) (bs : List Byte), programBase ≤ a ∧ a + bs.length ≤ memSize ∧
        t.mem = memStoreAll specParams s.mem a bs := by
  cases h with
  | ldB x hlo hhi => exact .inr ⟨⟨x, .inl rfl⟩, s.indexAddr, bcdDigits (s.getV x), hlo, hhi, rfl⟩
  | ldMemVx x hlo hhi => exact .inr ⟨⟨x, .inr rfl⟩, s.indexAddr, s.regRange x, hlo, by rwa [length_regRange], rfl⟩
  | _ => exact .inl (by simp)

theorem disp_cases (h : Effect s i t) : t.disp = s.disp ∨ i = .cls ∨ ∃ x y n, i = .drw x y n := by
  cases h with
  | cls => exact .inr (.inl rfl)
  | drw x y n => exact .inr (.inr ⟨x, y, n, rfl⟩)
  | _ => exact .inl (by simp)

/-- CLS and DRW ask for a redraw, and nothing takes the request back (R31, R173). -/
theorem needsRedraw_iff (h : Effect s i t) :
    t.needsRedraw = true ↔ s.needsRedraw = true ∨ i = .cls ∨ ∃ x y n, i = .drw x y n := by
  cases h <;> simp

/-- `awaiting_key` says that LD Vx, K found no key (R31, R72, R195). -/
theorem awaitingKey_iff (h : Effect s i t) :
    t.awaitingKey = true ↔ (∃ x, i = .ldVxK x) ∧ ∀ k : Nibble, s.key k = false := by
  cases h with
  | ldVxKStore x k hk =>
    have hnot : ¬ ∀ k : Nibble, s.key k = false := fun hall => by simp [hall k] at hk
    simp [hnot]
  | ldVxKWait x hk => simp [hk]
  | _ => simp

/-- What a fetched instruction leaves in PC is at most 0x10FE, where every return address is at most 0x1000 (R25). -/
theorem pc_le (h : Effect s i t) (hpc : s.pc.toNat + 1 < memSize)
    (hstack : ∀ k : Fin 16, (s.stack[k]).toNat ≤ 0x1000) : t.pc.toNat ≤ 0x10FE := by
  cases h with
  | seImm x kk | sneImm x kk | seReg x y | sneReg x y | skp x k hk | sknp x k hk => exact pc_skipIf_advance_le _ hpc
  | sys nnn | jp nnn | call nnn n hlt hn =>
    have := nnn.isLt
    simp only [State.setPc_pc, toNat_zext16]
    omega
  | jpV0 nnn =>
    have := nnn.isLt
    have := (s.getV 0x0#4).isLt
    simp only [State.setPc_pc, toNat_jumpV0Target]
    omega
  | ret n w hn hw =>
    obtain ⟨hk, rfl⟩ := Vector.getElem?_eq_some_iff.mp hw
    exact Nat.le_trans (hstack ⟨s.sp.val - 1, hk⟩) (by decide)
  | ldVxKWait x hk =>
    unfold memSize at hpc
    dsimp only
    omega
  | _ =>
    have hadv := toNat_pc_advance hpc
    unfold memSize at hpc
    change (s.pc + 2#16).toNat ≤ 0x10FE
    omega

end Effect
end Sys2Proof.Machine
end

section
/-! SUPPORT. The invariant of the machine is kept by every step and every host operation, so it holds after every sequence
of operations on a reset machine (spec rules R25, R33, R51, R55); and where the font lies (R8, R33, R35). -/

namespace Sys2Proof.Machine

variable {i : Instr} {s t : State}

/-! ### The three parts of the invariant -/

/-- Bytes stored in program memory keep the canonical form and reach nothing below 0x200. -/
theorem memStoreAll_keeps {a : Nat} {bs : List Byte} (hmem : s.MemOk) (hres : s.ReservedIntact)
    (hlo : programBase ≤ a) (hhi : a + bs.length ≤ memSize) (ht : t.mem = memStoreAll specParams s.mem a bs) :
    t.MemOk ∧ t.ReservedIntact := by
  refine ⟨?_, fun a' ha' => ?_⟩
  · unfold State.MemOk
    rw [ht]
    exact memStoreAll_wf specParams bs hmem hhi
  · have hbelow : a' < a := Nat.lt_of_lt_of_le ha' hlo
    unfold State.byteAt
    rw [ht, memLookup_memStoreAll_outside specParams bs s.mem (.inl hbelow)]
    exact hres a' ha'

theorem memory_kept_of_eq (hmem : s.MemOk) (hres : s.ReservedIntact) (ht : t.mem = s.mem) :
    t.MemOk ∧ t.ReservedIntact := by
  unfold State.MemOk State.ReservedIntact State.byteAt
  rw [ht]
  exact ⟨hmem, hres⟩

/-- A state with the same memory, PC and stack meets the invariant too. -/
theorem inv_of_eq (h : s.Inv) (hm : t.mem = s.mem) (hpc : t.pc = s.pc) (hst : t.stack = s.stack) : t.Inv := by
  obtain ⟨hmem, hres, hbound⟩ := h
  obtain ⟨hmem', hres'⟩ := memory_kept_of_eq hmem hres hm
  refine ⟨hmem', hres', ?_⟩
  unfold State.PcBounded
  rw [hpc, hst]
  exact hbound

namespace Effect

theorem memory_kept (h : Effect s i t) (hmem : s.MemOk) (hres : s.ReservedIntact) : t.MemOk ∧ t.ReservedIntact := by
  rcases h.mem_cases with heq | ⟨_, a, bs, hlo, hhi, ht⟩
  · exact memory_kept_of_eq hmem hres heq
  · exact memStoreAll_keeps hmem hres hlo hhi ht

/-- CALL pushes at most 0x1000, since it was fetched inside memory (R25). -/
theorem stack_le (h : Effect s i t) (hpc : s.pc.toNat + 1 < memSize)
    (hstack : ∀ k : Fin 16, (s.stack[k]).toNat ≤ 0x1000) (k : Fin 16) : (t.stack[k]).toNat ≤ 0x1000 := by
  rcases h.stack_cases with heq | ⟨_, hlt, heq⟩
  · rw [heq]
    exact hstack k
  · have hret : (s.pc + 2#16).toNat ≤ 0x1000 := by
      have hadv := toNat_pc_advance hpc
      unfold memSize at hpc
      omega
    rw [heq, Fin.getElem_fin, Vector.getElem_set]
    split
    · exact hret
    · exact hstack k

theorem inv (h : Effect s i t) (hpc : s.pc.toNat + 1 < memSize) (hs : s.Inv) : t.Inv := by
  obtain ⟨hmem, hres, _, hstack⟩ := hs
  obtain ⟨hmem', hres'⟩ := h.memory_kept hmem hres
  exact ⟨hmem', hres', h.pc_le hpc hstack, h.stack_le hpc hstack⟩

end Effect

/-! ### The invariant along steps and host operations -/

theorem step_inv (hs : s.Inv) (h : step s = .next t) : t.Inv := by
  rcases step_cases h with rfl | ⟨k, o, rfl⟩ | ⟨i, hpc, he⟩
  · exact hs
  · exact inv_of_eq hs rfl rfl rfl
  · exact he.inv hpc hs

/-- `construct()` leaves the reset state but for the draw counter, and the invariant says nothing of that. -/
theorem construct_inv (s : State) : s.construct.Inv := by
  refine ⟨reset_mem_wf specParams, fun a _ => rfl, ?_, fun k => ?_⟩
  · change (0x200#16).toNat ≤ 0x10FE
    decide
  · change ((Vector.replicate 16 0#16)[k]).toNat ≤ 0x1000
    simp

theorem load_inv {rom : List Byte} (hs : s.Inv) (h : s.load specParams rom = .ok t) : t.Inv := by
  obtain ⟨hmem, hres, hbound⟩ := hs
  obtain ⟨_, hlen, rfl⟩ := load_cases h
  have hfit : programBase + rom.length ≤ memSize := by
    unfold maxRom memSize programBase at *
    omega
  have hkept := memStoreAll_keeps (t := { s with mem := memStoreAll specParams s.mem programBase rom }) hmem hres
    (Nat.le_refl programBase) hfit rfl
  exact ⟨hkept.1, hkept.2, hbound⟩

theorem tickTimers_inv (hs : s.Inv) : s.tickTimers.Inv := by
  by_cases hf : s.fault = none
  · rw [tickTimers_eq hf]
    exact inv_of_eq hs rfl rfl rfl
  · rwa [tickTimers_faulted hf]

theorem perform_load_ok {rom : List Byte} (h : s.load specParams rom = .ok t) :
    s.perform (.load rom) = .next (t, .ok) := by
  simp [State.perform, h]

theorem perform_load_error {rom : List Byte} {e : LoadError} (h : s.load specParams rom = .error e) :
    s.perform (.load rom) = .next (s, .loadRefused e) := by
  simp [State.perform, h]

theorem perform_step (h : step s = .next t) : s.perform .step = .next (t, stepReply t) := by
  simp [State.perform, h]

/-- Every host operation on a machine that meets the invariant completes and keeps it. -/
theorem perform_inv (hs : s.Inv) (o : HostOp) : ∃ t reply, s.perform o = .next (t, reply) ∧ t.Inv := by
  cases o with
  | construct => exact ⟨_, _, rfl, construct_inv s⟩
  | load rom =>
    cases hl : s.load specParams rom with
    | ok t => exact ⟨t, .ok, perform_load_ok hl, load_inv hs hl⟩
    | error e => exact ⟨s, .loadRefused e, perform_load_error hl, hs⟩
  | step =>
    obtain ⟨t, ht⟩ := step_next s
    exact ⟨t, stepReply t, perform_step ht, step_inv hs ht⟩
  | tickTimers => exact ⟨_, _, rfl, tickTimers_inv hs⟩
  | setKey k down => exact ⟨_, _, rfl, inv_of_eq hs rfl rfl rfl⟩
  | ackRedraw => exact ⟨_, _, rfl, inv_of_eq hs rfl rfl rfl⟩

theorem performAll_inv (hs : s.Inv) (ops : List HostOp) : ∃ t, s.performAll ops = .next t ∧ t.Inv := by
  induction ops generalizing s with
  | nil => exact ⟨s, rfl, hs⟩
  | cons o ops ih =>
    obtain ⟨u, reply, hu, hinv⟩ := perform_inv hs o
    unfold State.performAll
    rw [hu]
    exact ih hinv

/-- Settles O47: a step does nothing, takes a fault or leaves an instruction's effect, and each keeps the invariant. -/
theorem stepKeepsInvariant : Obligations.StepKeepsInvariant := by
  unfold Obligations.StepKeepsInvariant
  intro s t hs h
  exact step_inv hs h

/-- Settles O49, by the invariant along every sequence of operations from the reset state. -/
theorem fontIsNeverMutated : Obligations.FontIsNeverMutated := by
  unfold Obligations.FontIsNeverMutated
  intro ops
  obtain ⟨t, ht, _, hres, _⟩ := performAll_inv (construct_inv State.reset) ops
  exact ⟨t, ht, hres⟩

/-! ### The font at reset -/

/-- Reset memory holds the font's bytes from FONT_BASE on (R33, R35). -/
theorem byteAt_reset_font (p : Params) {j : Nat} (hj : j < 80) :
    p.fontData.toList[j]? = some (State.reset.byteAt p (p.fontBase.toNat + j)) := by
  have hlen : j < p.fontData.toList.length := by simpa using hj
  change _ = some (initialByte p (p.fontBase.toNat + j))
  rw [initialByte, if_pos (Nat.le_add_right _ _), Nat.add_sub_cancel_left, List.getElem?_eq_getElem hlen,
    Option.getD_some]

/-- Settles O29: the glyph of digit d begins 5 * d bytes after FONT_BASE. -/
theorem glyphBytesAreResident : Obligations.GlyphBytesAreResident := by
  unfold Obligations.GlyphBytesAreResident
  intro p b k hp hk
  have hbase : p.fontBase.toNat + 80 ≤ 0x200 := of_decide_eq_true hp
  have hj : b.toNat % 16 * 5 + k < 80 := by omega
  rw [toNat_glyphAddress, Nat.add_assoc]
  exact ⟨by omega, byteAt_reset_font p hj⟩

end Sys2Proof.Machine
end

section
/-! SUPPORT. The statements about every instruction that follow from its effect: where it leaves PC, and which fields it
writes (spec rules R21, R24, R26 to R31, R34, R50, R173). -/

namespace Sys2Proof.Machine

/-- Settles O50: a fault keeps pc0; otherwise the effect of each instruction says its PC. -/
theorem pcAfterEachInstruction : Obligations.PcAfterEachInstruction := by
  unfold Obligations.PcAfterEachInstruction
  intro i s t hs h
  rcases exec_cases h with he | ⟨k, rfl⟩
  · refine ⟨fun hf => absurd (he.fault_eq.trans hs) hf, fun _ => ?_⟩
    cases he with
    | sys nnn | jp nnn | call nnn n hlt hn => exact toNat_zext16 nnn
    | jpV0 nnn => exact toNat_jumpV0Target nnn _
    | ret n w hn hw => exact hw
    | seImm x kk | sneImm x kk | seReg x y | sneReg x y =>
      exact (pc_skipIf_advance s _).trans (by simp)
    | skp x k hk => exact ⟨k, hk, pc_skipIf_advance s _⟩
    | sknp x k hk => exact ⟨k, hk, by rw [pc_skipIf_advance]; cases s.key k <;> rfl⟩
    | ldVxKStore x k hk => exact (if_pos ⟨k, hk⟩).symm
    | ldVxKWait x hk => exact (if_neg (by simp [hk])).symm
    | _ => rfl
  · exact ⟨fun _ => rfl, fun hf => by cases hf⟩

/-- Settles O51: an instruction that writes one register changes VF only when that register is VF. -/
theorem vfIsWrittenOnlyByItsInstructions : Obligations.VfIsWrittenOnlyByItsInstructions := by
  unfold Obligations.VfIsWrittenOnlyByItsInstructions
  intro i s t h hne
  rcases exec_cases h with he | ⟨k, rfl⟩
  · cases he with
    | addReg x y | subReg x y | shr x y | subn x y | shl x y => exact .inl ⟨x, y, by simp⟩
    | drw x y n => exact .inr (.inl ⟨x, y, n, rfl⟩)
    | ldImm x kk | addImm x kk | rnd x kk =>
      obtain rfl : x = vf := eq_of_getV_setV_ne (s := s.advance) hne
      exact .inr (.inr (.inl ⟨kk, 0#4, by simp⟩))
    | ldReg x y | orReg x y | andReg x y | xorReg x y =>
      obtain rfl : x = vf := eq_of_getV_setV_ne (s := s.advance) hne
      exact .inr (.inr (.inl ⟨0#8, y, by simp⟩))
    | ldVxDt x | ldVxKStore x k hk =>
      obtain rfl : x = vf := eq_of_getV_setV_ne (s := s.advance) hne
      simp
    | ldVxMem x hhi =>
      obtain rfl : x = vf := eq_vf_of_getV_setVs_ne (s := s.advance) hne
      simp
    | seImm | sneImm | seReg | sneReg | skp | sknp => exact absurd (s.advance.getV_skipIf _ vf) hne
    | _ => exact absurd rfl hne
  · exact absurd rfl hne

/-- Settles O52: the writers of the framebuffer and of memory, from the frame of every effect. -/
theorem screenAndMemoryWriters : Obligations.ScreenAndMemoryWriters := by
  unfold Obligations.ScreenAndMemoryWriters
  intro i s t h
  rcases exec_cases h with he | ⟨k, rfl⟩
  · exact ⟨he.disp_cases.resolve_left, fun hne => (he.mem_cases.resolve_left hne).1⟩
  · exact ⟨absurd rfl, absurd rfl⟩

/-- Settles O53: the writers of I, the stack, SP and the timers, from the frame of every effect. -/
theorem indexStackTimerWriters : Obligations.IndexStackTimerWriters := by
  unfold Obligations.IndexStackTimerWriters
  intro i s t h
  rcases exec_cases h with he | ⟨k, rfl⟩
  · exact ⟨he.i_cases.resolve_left, fun hne => (he.stack_cases.resolve_left hne).1, he.sp_cases.resolve_left,
      he.dt_cases.resolve_left, he.st_cases.resolve_left, he.keys_eq⟩
  · exact ⟨absurd rfl, absurd rfl, absurd rfl, absurd rfl, absurd rfl, rfl⟩

/-- Settles O54: an instruction that raises no fault leaves its effect, and that says both flags. -/
theorem interfaceFlagsAfterEachInstruction : Obligations.InterfaceFlagsAfterEachInstruction := by
  unfold Obligations.InterfaceFlagsAfterEachInstruction
  intro i s t _ h hf
  rcases exec_cases h with he | ⟨k, rfl⟩
  · exact ⟨he.awaitingKey_iff, he.needsRedraw_iff⟩
  · cases hf

end Sys2Proof.Machine
end

section
/-! SUPPORT. Noninterference (spec rules R29, R172, R218): replacing ST, the keypad, the framebuffer and `needs_redraw` by
any function of themselves commutes with every operation that does not use them, and so with every instruction that does
not. -/

namespace Sys2Proof.Machine

/-- A replacement of the four fields that few instructions use. -/
structure Relabel where
  st : Byte → Byte
  keys : Vector Bool 16 → Vector Bool 16
  disp : Display → Display
  needsRedraw : Bool → Bool

/-- The state with the four fields replaced. -/
def Relabel.on (m : Relabel) (s : State) : State :=
  { s with st := m.st s.st, keys := m.keys s.keys, disp := m.disp s.disp, needsRedraw := m.needsRedraw s.needsRedraw }

/-- The replacement leaves alone what the instruction uses: ST for LD ST, Vx; the keypad for SKP, SKNP and LD Vx, K; the
screen for CLS and DRW (R29, R34, R172). -/
structure Relabel.Spares (m : Relabel) (i : Instr) : Prop where
  st : (∃ x, i = .ldStVx x) → m.st = id
  keys : (∃ x, i = .skp x ∨ i = .sknp x ∨ i = .ldVxK x) → m.keys = id
  screen : (i = .cls ∨ ∃ x y n, i = .drw x y n) → m.disp = id ∧ m.needsRedraw = id

namespace Relabel

variable (m : Relabel) {p : Params} {i : Instr} {s t : State}

/-! ### The operations commute with a replacement -/

/-- A replacement before a result is mapped is a replacement after, if the map commutes with it. -/
theorem map_on {α : Type} {f g : α → State} (r : Except Fault α) (h : ∀ a, f a = m.on (g a)) :
    r.map f = (r.map g).map m.on := by
  cases r with
  | ok a => exact congrArg Except.ok (h a)
  | error k => rfl

theorem popPc_on (s : State) : (m.on s).popPc = s.popPc.map m.on := by
  unfold State.popPc
  change (if _ : s.sp.val = 0 then _ else _) = _
  split <;> rfl

theorem push_on (s : State) (w : Word) : (m.on s).push w = (s.push w).map m.on := by
  unfold State.push
  change (if _ : s.sp.val < 16 then _ else _) = _
  split <;> rfl

theorem addIndex_on (s : State) (b : Byte) : (m.on s).addIndex b = (s.addIndex b).map m.on := by
  unfold State.addIndex
  change (if 0xFFFF < s.i.toNat + b.toNat then _ else _) = _
  split <;> rfl

theorem keyOf_on (h : m.keys = id) (s : State) (b : Byte) : (m.on s).keyOf b = s.keyOf b := by
  simp [State.keyOf, State.key, on, h]

theorem memReads_on (s : State) (a n : Nat) : (m.on s).memReads p a n = s.memReads p a n := by
  induction n generalizing a with
  | zero => rfl
  | succ n ih =>
    rw [State.memReads, State.memReads, ih]
    rfl

theorem memWrite_on (s : State) (a : Nat) (v : Byte) : (m.on s).memWrite p a v = (s.memWrite p a v).map m.on := by
  unfold State.memWrite
  split
  · rfl
  · split <;> rfl

theorem memWrites_on (s : State) (a : Nat) (bs : List Byte) :
    (m.on s).memWrites p a bs = (s.memWrites p a bs).map m.on := by
  induction bs generalizing s a with
  | nil => rfl
  | cons b bs ih =>
    rw [State.memWrites, State.memWrites, memWrite_on]
    cases s.memWrite p a b with
    | error k => rfl
    | ok t => exact ih t (a + 1)

theorem blockLoad_on (s : State) (x : Nibble) : blockLoad p x (m.on s) = (blockLoad p x s).map m.on := by
  change ((m.on s).memReads p s.indexAddr (rangeSize x)).map _ = ((s.memReads p s.indexAddr (rangeSize x)).map _).map _
  rw [memReads_on]
  exact m.map_on _ fun bytes => rfl

theorem drawSprite_on (h : m.disp = id ∧ m.needsRedraw = id) (s : State) (x y n : Nibble) :
    drawSprite p x y n (m.on s) = (drawSprite p x y n s).map m.on := by
  obtain ⟨st, keys, disp, needsRedraw⟩ := m
  obtain ⟨rfl, rfl⟩ := h
  have hreads : ((on ⟨st, keys, id, id⟩ s).setV vf 0#8).memReads p s.indexAddr n.toNat =
      (s.setV vf 0#8).memReads p s.indexAddr n.toNat := memReads_on ⟨st, keys, id, id⟩ (s.setV vf 0#8) _ _
  change (((on ⟨st, keys, id, id⟩ s).setV vf 0#8).memReads p s.indexAddr n.toNat).map _ =
    (((s.setV vf 0#8).memReads p s.indexAddr n.toNat).map _).map _
  rw [hreads]
  exact map_on _ _ fun rows => rfl

theorem skipIf_on (s : State) (c : Bool) : (m.on s).skipIf c = m.on (s.skipIf c) := by
  cases c <;> rfl

/-- Ending an instruction commutes with a replacement: a fault taken on the replaced state is the same fault. -/
theorem commit_on {r r' : Except Fault State} (hr : r' = r.map m.on) (h : commit i s r = .next t) :
    commit i (m.on s) r' = .next (m.on t) := by
  subst hr
  cases r with
  | ok u =>
    cases h
    rfl
  | error k =>
    cases h
    rfl

/-! ### Instructions commute with a replacement that spares what they use -/

theorem exec_on (hm : m.Spares i) (h : exec i s = .next t) : exec i (m.on s) = .next (m.on t) := by
  cases i with
  | ret => exact m.commit_on (m.popPc_on s.advance) h
  | call nnn =>
    refine m.commit_on ?_ h
    have hpush := m.push_on s.advance s.advance.pc
    change ((m.on s.advance).push s.advance.pc).map _ = _
    rw [hpush]
    cases s.advance.push s.advance.pc <;> rfl
  | skp x =>
    refine m.commit_on ?_ h
    rw [m.keyOf_on (hm.keys ⟨x, .inl rfl⟩)]
    exact m.map_on _ (m.skipIf_on s.advance)
  | sknp x =>
    refine m.commit_on ?_ h
    rw [m.keyOf_on (hm.keys ⟨x, .inr (.inl rfl)⟩)]
    exact m.map_on _ fun down => m.skipIf_on s.advance (!down)
  | drw x y n => exact m.commit_on (m.drawSprite_on (hm.screen (.inr ⟨x, y, n, rfl⟩)) s.advance x y n) h
  | addI x => exact m.commit_on (m.addIndex_on s.advance (s.getV x)) h
  | ldB x => exact m.commit_on (m.memWrites_on s.advance s.indexAddr (bcdDigits (s.getV x))) h
  | ldMemVx x => exact m.commit_on (m.memWrites_on s.advance s.indexAddr (s.regRange x)) h
  | ldVxMem x => exact m.commit_on (m.blockLoad_on s.advance x) h
  | cls =>
    obtain ⟨st, keys, disp, needsRedraw⟩ := m
    obtain ⟨rfl, rfl⟩ : disp = id ∧ needsRedraw = id := hm.screen (.inl rfl)
    cases h
    rfl
  | ldStVx x =>
    obtain ⟨st, keys, disp, needsRedraw⟩ := m
    obtain rfl : st = id := hm.st ⟨x, rfl⟩
    cases h
    rfl
  | ldVxK x =>
    have hkeys : (m.on s).leastKeyDown = s.leastKeyDown := by
      simp [State.leastKeyDown, on, hm.keys ⟨x, .inr (.inr rfl)⟩]
    change execLdVxK x s = .next t at h
    change execLdVxK x (m.on s) = _
    unfold execLdVxK at h ⊢
    rw [hkeys]
    cases hl : s.leastKeyDown <;> rw [hl] at h <;> cases h <;> rfl
  | seImm | sneImm | seReg | sneReg =>
    cases h
    exact congrArg Host.Outcome.next (m.skipIf_on s.advance _)
  | _ =>
    cases h
    rfl

end Relabel

/-- Settles O55: each of the three replacements spares what the instructions it is claimed for use. -/
theorem unreadStateDoesNotMatter : Obligations.UnreadStateDoesNotMatter := by
  unfold Obligations.UnreadStateDoesNotMatter
  intro i s t h
  refine ⟨fun hst b => ?_, fun hkeys ks => ?_, fun hscreen d b => ?_⟩
  · exact Relabel.exec_on ⟨fun _ => b, id, id, id⟩
      ⟨fun ⟨x, hx⟩ => absurd hx (hst x), fun _ => rfl, fun _ => ⟨rfl, rfl⟩⟩ h
  · refine Relabel.exec_on ⟨id, fun _ => ks, id, id⟩ ⟨fun _ => rfl, fun ⟨x, hx⟩ => ?_, fun _ => ⟨rfl, rfl⟩⟩ h
    obtain ⟨hskp, hsknp, hldVxK⟩ := hkeys x
    rcases hx with hx | hx | hx
    · exact absurd hx hskp
    · exact absurd hx hsknp
    · exact absurd hx hldVxK
  · refine Relabel.exec_on ⟨id, id, fun _ => d, fun _ => b⟩ ⟨fun _ => rfl, fun _ => rfl, ?_⟩ h
    rintro (hcls | ⟨x, y, n, hdrw⟩)
    · exact absurd hcls hscreen.1
    · exact absurd hdrw (hscreen.2 x y n)

end Sys2Proof.Machine
end

section
/-! SUPPORT. What a checked write does (spec rule R55): its two checks, and the state it leaves. -/

namespace Sys2Proof.Machine

/-- Settles O30: `memWrite_outside` and `memWrite_reserved` are its two checks, and a write that passes them is one
`memStore`, so the laws of `memStore` say what it changes, what it leaves, and that memory stays canonical. -/
theorem writeChecksThenStores : Obligations.WriteChecksThenStores := by
  unfold Obligations.WriteChecksThenStores
  intro p s a v
  refine ⟨memWrite_outside v, memWrite_reserved v, fun ha hpolicy => ?_⟩
  have hpass : programBase ≤ a ∨ p.lowWritePolicy ≠ .fault :=
    hpolicy.imp_right fun hallow => by simp [hallow]
  refine ⟨_, memWrite_ok v ha hpass, rfl, ?_, fun a' hne => ?_, fun hwf => ?_⟩
  · rw [memRead_ok ha]
    exact congrArg Except.ok (memLookup_memStore_self p s.mem a v)
  · exact memLookup_memStore_other p s.mem v hne
  · exact memStore_wf p v hwf ha

end Sys2Proof.Machine
end

section
/-! SUPPORT. The decoder and the encoder are inverse to each other, and the dispatching decoder is the match/mask map of
the spec (spec rules R74 to R83). `decodeOption_eq_some_iff` says which word each instruction has, and
`decodeOption_eq_none_iff` which words have no instruction; the statements about `decode` follow from these two. -/

namespace Sys2Proof

variable {op : Word} {i : Instr}

/-! ### A word from its first nibble and its operands -/

theorem nnn_of_toNat_opN1 {a : Nibble} (h : (opN1 op).toNat = a.toNat) : a ++ opNnn op = op := by
  obtain rfl := BitVec.eq_of_toNat_eq h
  exact (word_eq_nnn op).symm

theorem xkk_of_toNat_opN1 {a : Nibble} (h : (opN1 op).toNat = a.toNat) : a ++ opX op ++ opKk op = op := by
  obtain rfl := BitVec.eq_of_toNat_eq h
  exact (word_eq_xkk op).symm

theorem xyn_of_toNat_opN1 {a n : Nibble} (h : (opN1 op).toNat = a.toNat) (hn : opN op = n) :
    a ++ opX op ++ opY op ++ n = op := by
  obtain rfl := BitVec.eq_of_toNat_eq h
  subst hn
  exact (word_eq_xyn op).symm

/-! ### Encoding what was decoded, family by family -/

theorem encode_decode0 (nnn : Addr12) : encode (decode0 nnn) = 0x0#4 ++ nnn ∧ (decode0 nnn).wellFormed = true := by
  unfold decode0
  split_ifs with hcls hret
  · subst hcls
    decide
  · subst hret
    decide
  · exact ⟨rfl, by simp [Instr.wellFormed, hcls, hret]⟩

theorem encode_of_decode8 {x y n : Nibble} (h : decode8 x y n = some i) :
    encode i = 0x8#4 ++ x ++ y ++ n ∧ i.wellFormed = true := by
  unfold decode8 at h
  split at h
  case h_10 => cases h
  all_goals
    rename_i hn
    cases h
    exact ⟨congrArg (0x8#4 ++ x ++ y ++ ·) (BitVec.eq_of_toNat_eq hn.symm), rfl⟩

theorem encode_of_decodeE {x : Nibble} {kk : Byte} (h : decodeE x kk = some i) :
    encode i = 0xE#4 ++ x ++ kk ∧ i.wellFormed = true := by
  unfold decodeE at h
  split_ifs at h with hkk hkk <;> cases h <;> exact ⟨congrArg (0xE#4 ++ x ++ ·) hkk.symm, rfl⟩

theorem encode_of_decodeF {x : Nibble} {kk : Byte} (h : decodeF x kk = some i) :
    encode i = 0xF#4 ++ x ++ kk ∧ i.wellFormed = true := by
  unfold decodeF at h
  split_ifs at h with hkk hkk hkk hkk hkk hkk hkk hkk hkk <;> cases h <;>
    exact ⟨congrArg (0xF#4 ++ x ++ ·) hkk.symm, rfl⟩

/-- A word that decodes is the word of its instruction, which is well-formed. -/
theorem encode_of_decodeOption (h : decodeOption op = some i) : encode i = op ∧ i.wellFormed = true := by
  unfold decodeOption at h
  split at h
  case h_1 hf =>
    cases h
    rw [← nnn_of_toNat_opN1 (a := 0x0#4) hf, opNnn_nnn]
    exact encode_decode0 (opNnn op)
  case h_2 hf | h_3 hf | h_11 hf | h_12 hf =>
    cases h
    exact ⟨nnn_of_toNat_opN1 hf, rfl⟩
  case h_4 hf | h_5 hf | h_7 hf | h_8 hf | h_13 hf =>
    cases h
    exact ⟨xkk_of_toNat_opN1 hf, rfl⟩
  case h_6 hf | h_10 hf =>
    split_ifs at h with hn
    cases h
    exact ⟨xyn_of_toNat_opN1 hf hn, rfl⟩
  case h_9 hf => exact xyn_of_toNat_opN1 (a := 0x8#4) hf rfl ▸ encode_of_decode8 h
  case h_14 hf =>
    cases h
    exact ⟨xyn_of_toNat_opN1 hf rfl, rfl⟩
  case h_15 hf => exact xkk_of_toNat_opN1 (a := 0xE#4) hf ▸ encode_of_decodeE h
  case h_16 =>
    have hf : (opN1 op).toNat = (0xF#4).toNat := by
      have := (opN1 op).isLt
      simp only [imp_false, BitVec.toNat_ofNat] at *
      omega
    exact xkk_of_toNat_opN1 hf ▸ encode_of_decodeF h

/-! ### Decoding what was encoded -/

/-- The word of a well-formed instruction decodes to it: the fields of the word are the operands it was made of. -/
theorem decodeOption_encode (h : i.wellFormed = true) : decodeOption (encode i) = some i := by
  cases i with
  | cls | ret => rfl
  | sys nnn =>
    obtain ⟨hcls, hret⟩ : nnn ≠ 0x0E0#12 ∧ nnn ≠ 0x0EE#12 := by simpa [Instr.wellFormed] using h
    simp [encode, decodeOption, decode0, hcls, hret]
  | jp nnn | call nnn | ldI nnn | jpV0 nnn => simp [encode, decodeOption]
  | seImm x kk | sneImm x kk | ldImm x kk | addImm x kk | rnd x kk => simp [encode, decodeOption]
  | seReg x y | sneReg x y => simp [encode, decodeOption]
  | ldReg x y | orReg x y | andReg x y | xorReg x y | addReg x y | subReg x y | shr x y | subn x y | shl x y =>
    simp [encode, decodeOption, decode8]
  | drw x y n => simp [encode, decodeOption]
  | skp x | sknp x => simp [encode, decodeOption, decodeE]
  | ldVxDt x | ldVxK x | ldDtVx x | ldStVx x | addI x | ldF x | ldB x | ldMemVx x | ldVxMem x =>
    simp [encode, decodeOption, decodeF]

theorem decodeOption_eq_some_iff : decodeOption op = some i ↔ encode i = op ∧ i.wellFormed = true := by
  refine ⟨encode_of_decodeOption, ?_⟩
  rintro ⟨rfl, hwf⟩
  exact decodeOption_encode hwf

/-- Settles O1: the word of a well-formed instruction decodes to it. -/
theorem decodeOfEncodeIsIdentity : Obligations.DecodeOfEncodeIsIdentity := by
  unfold Obligations.DecodeOfEncodeIsIdentity
  intro i hwf
  exact decode_eq_ok.mpr (decodeOption_eq_some_iff.mpr ⟨rfl, hwf⟩)

/-- Settles O2, by inversion of the decoder family by family. -/
theorem encodeOfDecodeIsIdentity : Obligations.EncodeOfDecodeIsIdentity := by
  unfold Obligations.EncodeOfDecodeIsIdentity
  intro op i h
  exact decodeOption_eq_some_iff.mp (decode_eq_ok.mp h)

/-! ### The words that are no instruction -/

/-- A word of a family with a secondary decode whose secondary field is not among the listed values (R79). -/
abbrev NoInstruction (op : Word) : Prop :=
  (opN1 op = 0x5#4 ∧ opN op ≠ 0x0#4) ∨
  (opN1 op = 0x8#4 ∧ opN op ∉ [0x0#4, 0x1#4, 0x2#4, 0x3#4, 0x4#4, 0x5#4, 0x6#4, 0x7#4, 0xE#4]) ∨
  (opN1 op = 0x9#4 ∧ opN op ≠ 0x0#4) ∨
  (opN1 op = 0xE#4 ∧ opKk op ∉ [0x9E#8, 0xA1#8]) ∨
  (opN1 op = 0xF#4 ∧ opKk op ∉ [0x07#8, 0x0A#8, 0x15#8, 0x18#8, 0x1E#8, 0x29#8, 0x33#8, 0x55#8, 0x65#8])

theorem decode8_eq_none_iff (x y n : Nibble) :
    decode8 x y n = none ↔ n ∉ [0x0#4, 0x1#4, 0x2#4, 0x3#4, 0x4#4, 0x5#4, 0x6#4, 0x7#4, 0xE#4] := by
  simp only [List.mem_cons, ← BitVec.toNat_inj]
  unfold decode8
  split <;> simp_all

theorem decodeE_eq_none_iff (x : Nibble) (kk : Byte) : decodeE x kk = none ↔ kk ∉ [0x9E#8, 0xA1#8] := by
  unfold decodeE
  split_ifs <;> simp [*]

theorem decodeF_eq_none_iff (x : Nibble) (kk : Byte) :
    decodeF x kk = none ↔ kk ∉ [0x07#8, 0x0A#8, 0x15#8, 0x18#8, 0x1E#8, 0x29#8, 0x33#8, 0x55#8, 0x65#8] := by
  unfold decodeF
  split_ifs <;> simp [*]

/-- The eleven families with no secondary decode (family 0x0 has its own, R78), and the five with one (R79). -/
theorem family_cases (a : Nibble) :
    a ∈ [0x0#4, 0x1#4, 0x2#4, 0x3#4, 0x4#4, 0x6#4, 0x7#4, 0xA#4, 0xB#4, 0xC#4, 0xD#4] ∨
      a = 0x5#4 ∨ a = 0x8#4 ∨ a = 0x9#4 ∨ a = 0xE#4 ∨ a = 0xF#4 := by
  revert a
  decide

theorem decodeOption_eq_none_iff (op : Word) : decodeOption op = none ↔ NoInstruction op := by
  rcases family_cases (opN1 op) with hplain | hf | hf | hf | hf | hf
  · simp only [List.mem_cons, List.not_mem_nil, or_false] at hplain
    rcases hplain with hf | hf | hf | hf | hf | hf | hf | hf | hf | hf | hf <;> simp [NoInstruction, decodeOption, hf]
  · simp [NoInstruction, decodeOption, hf]
  · simp [NoInstruction, decodeOption, hf, decode8_eq_none_iff]
  · simp [NoInstruction, decodeOption, hf]
  · simp [NoInstruction, decodeOption, hf, decodeE_eq_none_iff]
  · simp [NoInstruction, decodeOption, hf, decodeF_eq_none_iff]

theorem decode_eq_error_iff : decode op = .error (.decodeFailure op) ↔ decodeOption op = none := by
  rcases decode_cases op with ⟨i, h, hd⟩ | ⟨h, hd⟩ <;> simp [h, hd]

/-- Settles O4: only a secondary decode can fail, and it fails exactly on the values it does not list. -/
theorem secondaryDecodeOfFamilies : Obligations.SecondaryDecodeOfFamilies := by
  unfold Obligations.SecondaryDecodeOfFamilies
  intro op
  exact decode_eq_error_iff.trans (decodeOption_eq_none_iff op)

/-! ### Family 0x0 and sample words -/

theorem eq_iff_opNnn_eq {v w : Word} (h : opN1 v = opN1 w) : v = w ↔ opNnn v = opNnn w := by
  refine ⟨congrArg opNnn, fun hnnn => ?_⟩
  rw [word_eq_nnn v, word_eq_nnn w, h, hnnn]

/-- Settles O5: a word of family 0x0 is told by its nnn. -/
theorem familyZeroNeverFails : Obligations.FamilyZeroNeverFails := by
  unfold Obligations.FamilyZeroNeverFails
  intro op h
  have hcls : op = 0x00E0#16 ↔ opNnn op = 0x0E0#12 := eq_iff_opNnn_eq h
  have hret : op = 0x00EE#16 ↔ opNnn op = 0x0EE#12 := eq_iff_opNnn_eq h
  rw [decode_eq_ok]
  simp [decodeOption, decode0, h, hcls, hret]

/-- Settles O6, by running the decoder on each word. -/
theorem sampleWordsDecode : Obligations.SampleWordsDecode := by
  unfold Obligations.SampleWordsDecode
  decide

end Sys2Proof

namespace Sys2Proof.Laws.EncodeMatchesRow

/-- The lemma of every instruction, in the table's order. -/
theorem statement_holds (i : Instr) : Statement i :=
  Instr.casesOn i cls ret sys jp call seImm sneImm seReg ldImm addImm ldReg orReg andReg xorReg addReg subReg shr subn
    shl sneReg ldI jpV0 rnd drw skp sknp ldVxDt ldVxK ldDtVx ldStVx addI ldF ldB ldMemVx ldVxMem

end Sys2Proof.Laws.EncodeMatchesRow

namespace Sys2Proof

variable {op : Word} {i : Instr}

/-! ### The match/mask map -/

/-- A word that decodes belongs to the first row it matches. -/
theorem opcodeRow_of_decodeOption (h : decodeOption op = some i) : opcodeRow op = some i.row := by
  obtain ⟨rfl, hwf⟩ := decodeOption_eq_some_iff.mp h
  exact Laws.EncodeMatchesRow.statement_holds i hwf

/-- A word with a first row matches that row. -/
theorem exists_match_of_opcodeRow {n : Nat} (h : opcodeRow op = some n) :
    ∃ r ∈ opcodeMap, op &&& r.2.2 = r.2.1 := by
  obtain ⟨r, hr, _⟩ := Option.map_eq_some_iff.mp h
  exact ⟨r, List.mem_of_find?_eq_some hr, by simpa using List.find?_some hr⟩

/-- Every row fixes the first nibble, and the secondary field too in the families that have one (R79, R80). -/
theorem opcodeMap_masks : ∀ r ∈ opcodeMap, opN1 r.2.2 = 0xF#4 ∧
    (opN1 r.2.1 ∈ [0x5#4, 0x8#4, 0x9#4] → opN r.2.2 = 0xF#4) ∧
    (opN1 r.2.1 ∈ [0xE#4, 0xF#4] → opKk r.2.2 = 0xFF#8) := by
  decide

theorem opcodeMap_patterns : ∀ r ∈ opcodeMap, ¬ NoInstruction r.2.1 := by
  decide

/-- Two rows agree where both masks look only if they are one row, or row 3 and a row it gives way to (R80). -/
theorem opcodeMap_overlaps : ∀ a ∈ opcodeMap, ∀ b ∈ opcodeMap, a.2.1 &&& b.2.2 = b.2.1 &&& a.2.2 →
    a.1 = b.1 ∨ (a.1 = 3 ∧ b.1 ≤ 2) ∨ (b.1 = 3 ∧ a.1 ≤ 2) := by
  decide

/-- Whether a word is no instruction rests on its first nibble and on the secondary field its family has. -/
theorem NoInstruction.congr {v w : Word} (h : NoInstruction v) (hf : opN1 v = opN1 w)
    (hn : opN1 w ∈ [0x5#4, 0x8#4, 0x9#4] → opN v = opN w) (hkk : opN1 w ∈ [0xE#4, 0xF#4] → opKk v = opKk w) :
    NoInstruction w := by
  unfold NoInstruction at h
  rw [hf] at h
  rcases h with ⟨h1, h2⟩ | ⟨h1, h2⟩ | ⟨h1, h2⟩ | ⟨h1, h2⟩ | ⟨h1, h2⟩
  · exact .inl ⟨h1, hn (by simp [h1]) ▸ h2⟩
  · exact .inr (.inl ⟨h1, hn (by simp [h1]) ▸ h2⟩)
  · exact .inr (.inr (.inl ⟨h1, hn (by simp [h1]) ▸ h2⟩))
  · exact .inr (.inr (.inr (.inl ⟨h1, hkk (by simp [h1]) ▸ h2⟩)))
  · exact .inr (.inr (.inr (.inr ⟨h1, hkk (by simp [h1]) ▸ h2⟩)))

/-- A word that matches a row is an instruction, since the row fixes the fields that decide it. -/
theorem not_noInstruction_of_match {r : Nat × Word × Word} (hr : r ∈ opcodeMap) (h : op &&& r.2.2 = r.2.1) :
    ¬ NoInstruction op := by
  obtain ⟨hfamily, hn, hkk⟩ := opcodeMap_masks r hr
  have hopN1 : opN1 op &&& opN1 r.2.2 = opN1 r.2.1 := by rw [← h, opN1, opN1, opN1, BitVec.extractLsb'_and]
  have hopN : opN op &&& opN r.2.2 = opN r.2.1 := by rw [← h, opN, opN, opN, BitVec.extractLsb'_and]
  have hopKk : opKk op &&& opKk r.2.2 = opKk r.2.1 := by rw [← h, opKk, opKk, opKk, BitVec.extractLsb'_and]
  rw [hfamily, nibble_and_15] at hopN1
  refine fun hno => opcodeMap_patterns r hr (hno.congr hopN1 (fun hm => ?_) (fun hm => ?_))
  · rw [← hopN, hn hm, nibble_and_15]
  · rw [← hopKk, hkk hm]
    exact BitVec.and_allOnes.symm

/-- Two rows that match one word agree where both masks look. -/
theorem patterns_agree {m w m' w' : Word} (h : op &&& m = w) (h' : op &&& m' = w') : w &&& m' = w' &&& m := by
  rw [← h, ← h', BitVec.and_assoc, BitVec.and_assoc, BitVec.and_comm m]

/-- Settles O3: a decoded word is an encoded one, whose first row is its instruction's own; a row fixes the
fields that decide whether a word is an instruction; and the overlaps of the 35 rows are computed. -/
theorem decoderAgreesWithOpcodeMap : Obligations.DecoderAgreesWithOpcodeMap := by
  unfold Obligations.DecoderAgreesWithOpcodeMap
  refine ⟨fun op i h => opcodeRow_of_decodeOption (decode_eq_ok.mp h), fun op n h => ?_, fun op h => ?_, ?_⟩
  · obtain ⟨r, hr, hm⟩ := exists_match_of_opcodeRow h
    rcases decode_cases op with ⟨i, hi, hd⟩ | ⟨hnone, _⟩
    · exact ⟨i, hd, Option.some.inj ((opcodeRow_of_decodeOption hi).symm.trans h)⟩
    · exact absurd ((decodeOption_eq_none_iff op).mp hnone) (not_noInstruction_of_match hr hm)
  · rcases decode_cases op with ⟨i, hi, _⟩ | ⟨_, hd⟩
    · rw [opcodeRow_of_decodeOption hi] at h
      cases h
    · exact hd
  · intro op a ha b hb hma hmb
    exact opcodeMap_overlaps a ha b hb (patterns_agree hma hmb)

end Sys2Proof
end

section
/-! SUPPORT. The fetch and the step up to execution (spec rules R71 to R73, R212): the word at PC is fetched big-endian,
and a step runs its instruction or takes the fault. -/

namespace Sys2Proof.Machine

variable {s : State}

/-! ### The fetch -/

theorem fetch16_at_end {p : Params} (h : s.pc.toNat = 0xFFF) :
    s.fetch16 p = .error (.addressOutOfRange 0x1000) := by
  rw [fetch16_error (by unfold memSize; omega), h]
  rfl

theorem fetch16_past_end {p : Params} (h : 0x1000 ≤ s.pc.toNat) :
    s.fetch16 p = .error (.addressOutOfRange s.pc.toNat) := by
  rw [fetch16_error (Nat.le_succ_of_le h), Nat.max_eq_left (show memSize ≤ s.pc.toNat from h)]

theorem fetch16_wordAtPc (h : s.pc.toNat < 0xFFF) : s.fetch16 specParams = .ok s.wordAtPc :=
  fetch16_ok (Nat.succ_lt_succ h)

/-- Settles O7: the two bytes at PC appended are the fetched word; the faults are those of the reads. -/
theorem fetchIsBigEndian : Obligations.FetchIsBigEndian := by
  unfold Obligations.FetchIsBigEndian
  intro p s
  exact ⟨fun h => ⟨_, fetch16_ok (Nat.succ_lt_succ h), toNat_wordOfBytes _ _⟩, fetch16_at_end, fetch16_past_end⟩

/-! ### The step -/

theorem step_of_fetch_error {k : Fault} (hf : s.fault = none) (h : s.fetch16 specParams = .error k) :
    step s = .next (s.takeFault k none) := by
  simp [step, State.issue, hf, h]

theorem step_of_decode_error {e : DecodeError} (hf : s.fault = none) (hpc : s.pc.toNat < 0xFFF)
    (h : decode s.wordAtPc = .error e) :
    step s = .next (s.takeFault (.decodeFailure s.wordAtPc) (some s.wordAtPc)) := by
  simp [step, State.issue, hf, fetch16_wordAtPc hpc, h]

theorem step_of_decode_ok {i : Instr} (hf : s.fault = none) (hpc : s.pc.toNat < 0xFFF)
    (h : decode s.wordAtPc = .ok i) : step s = exec i s := by
  simp [step, State.issue, hf, fetch16_wordAtPc hpc, h]

/-- Settles O8: no fault, the fetched word and its decoding leave one branch of the step. -/
theorem stepRunsDecodedInstruction : Obligations.StepRunsDecodedInstruction := by
  unfold Obligations.StepRunsDecodedInstruction
  intro s i hf hpc hd
  exact step_of_decode_ok hf hpc hd

/-- Settles O9, by the three ways in which a step has no instruction to run. -/
theorem fetchAndDecodeFaultsAreTaken : Obligations.FetchAndDecodeFaultsAreTaken := by
  unfold Obligations.FetchAndDecodeFaultsAreTaken
  intro s hf
  exact ⟨step_of_decode_error hf, fun hpc => step_of_fetch_error hf (fetch16_at_end hpc),
    fun hpc => step_of_fetch_error hf (fetch16_past_end hpc)⟩

/-- Settles O12: a step that issues no instruction answers a state, and so does every instruction (`exec_next`). -/
theorem everyStepAnswersNext : Obligations.EveryStepAnswersNext := by
  unfold Obligations.EveryStepAnswersNext
  exact step_next

/-! ### A placed word -/

theorem tableWord_toNat (op : Word) : tableWord 16 op.toNat = op := by
  unfold tableWord
  rw [Nat.mod_eq_of_lt op.isLt, BitVec.ofNat_toNat, BitVec.setWidth_eq]

/-- Settles O13: the placed state has no fault, a PC the fetch accepts, and the word at that PC. -/
theorem placedWordRunsNext : Obligations.PlacedWordRunsNext := by
  unfold Obligations.PlacedWordRunsNext
  intro s op i h
  unfold State.withFetchWord
  rw [tableWord_toNat]
  have hpc : (s.placeWord specParams op).pc.toNat < 0xFFF := Nat.lt_of_succ_lt_succ (placePc_lt s)
  have hword : (s.placeWord specParams op).wordAtPc = op := wordOfBytes_placeWord s op
  exact step_of_decode_ok rfl hpc (hword.symm ▸ h)

end Sys2Proof.Machine
end

section
/-! SUPPORT. Control transfer and skips (spec file 41_control_flow.md): an instruction that only moves PC leaves every other
field as it was (`exists_next_of_setPc`), and CALL and RET change the stack and PC alone (`keepsOutsideStack_update`). -/

namespace Sys2Proof

/-- A word of the families 0x5 and 0x9 with a low nibble other than 0 is no instruction (R83). -/
theorem decode_xyn_eq_error {a n : Nibble} (x y : Nibble) (ha : a = 0x5#4 ∨ a = 0x9#4) (hn : n ≠ 0x0#4) :
    decode (a ++ x ++ y ++ n) = .error (.decodeFailure (a ++ x ++ y ++ n)) := by
  refine decode_eq_error_iff.mpr ((decodeOption_eq_none_iff _).mpr ?_)
  rcases ha with rfl | rfl
  · exact .inl ⟨opN1_xyn _ x y n, (opN_xyn _ x y n).symm ▸ hn⟩
  · exact .inr (.inr (.inl ⟨opN1_xyn _ x y n, (opN_xyn _ x y n).symm ▸ hn⟩))

end Sys2Proof

namespace Sys2Proof.Machine

variable {s : State}

/-! ### Instructions that only move PC -/

theorem changesOnlyV_nil_setPc (s : State) (w : Word) : ChangesOnlyV [] s (s.advance.setPc w) :=
  ⟨fun _ _ => rfl, rfl, ⟨rfl, rfl⟩, ⟨rfl, rfl⟩, fun _ => rfl, ⟨rfl, rfl⟩, ⟨rfl, rfl⟩, rfl⟩

/-- An instruction that answers a jump from the advanced state moves PC to the target and changes nothing else. -/
theorem exists_next_of_setPc {i : Instr} {w : Word} (h : exec i s = .next (s.advance.setPc w)) :
    ∃ t, exec i s = .next t ∧ t.pc = w ∧ t.awaitingKey = false ∧ ChangesOnlyV [] s t :=
  ⟨_, h, rfl, rfl, changesOnlyV_nil_setPc s w⟩

theorem exists_next_of_jump {i : Instr} {w : Word} {n : Nat} (h : exec i s = .next (s.advance.setPc w))
    (hw : w.toNat = n) : ∃ t, exec i s = .next t ∧ t.pc.toNat = n ∧ t.awaitingKey = false ∧ ChangesOnlyV [] s t := by
  obtain ⟨t, ht, rfl, hframe⟩ := exists_next_of_setPc h
  exact ⟨t, ht, hw, hframe⟩

/-- A skip from the advanced state is a jump over one word or over none (R109). -/
theorem skipIf_advance (s : State) (c : Bool) :
    s.advance.skipIf c = s.advance.setPc (if c then s.pc + 4#16 else s.pc + 2#16) := by
  cases c with
  | true => exact congrArg s.advance.setPc (BitVec.add_assoc s.pc 2#16 2#16)
  | false => rfl

/-- An instruction that answers a skip from the advanced state passes over one word exactly when the condition holds. -/
theorem exists_next_of_skipIf {i : Instr} {c : Bool} (h : exec i s = .next (s.advance.skipIf c)) :
    ∃ t, exec i s = .next t ∧ t.pc = (if c then s.pc + 4#16 else s.pc + 2#16) ∧ t.awaitingKey = false ∧
      ChangesOnlyV [] s t :=
  exists_next_of_setPc (h.trans (congrArg _ (skipIf_advance s c)))

/-- SE: the condition is equality (R104, R106). -/
theorem exists_next_of_skipIf_eq {i : Instr} {a b : Byte} (h : exec i s = .next (s.advance.skipIf (a == b))) :
    ∃ t, exec i s = .next t ∧ t.pc = (if a = b then s.pc + 4#16 else s.pc + 2#16) ∧ t.awaitingKey = false ∧
      ChangesOnlyV [] s t := by
  simpa only [beq_iff_eq] using exists_next_of_skipIf h

/-- SNE: the condition is inequality (R105, R107). -/
theorem exists_next_of_skipIf_ne {i : Instr} {a b : Byte} (h : exec i s = .next (s.advance.skipIf (a != b))) :
    ∃ t, exec i s = .next t ∧ t.pc = (if a = b then s.pc + 2#16 else s.pc + 4#16) ∧ t.awaitingKey = false ∧
      ChangesOnlyV [] s t := by
  simpa only [bne_iff_ne, ne_eq, ite_not] using exists_next_of_skipIf h

/-- Settles O14: each of the three answers `advance` followed by a jump, to `zext16 nnn` or to `jumpV0Target`. -/
theorem jumpsReachTheirTarget : Obligations.JumpsReachTheirTarget := by
  unfold Obligations.JumpsReachTheirTarget
  intro nnn s
  refine ⟨fun hcls hret => decodeOfEncodeIsIdentity (.sys nnn) ?_, decodeOfEncodeIsIdentity (.jp nnn) rfl,
    decodeOfEncodeIsIdentity (.jpV0 nnn) rfl, exists_next_of_jump rfl (toNat_zext16 nnn),
    exists_next_of_jump rfl (toNat_zext16 nnn), ?_⟩
  · simp [Instr.wellFormed, hcls, hret]
  · obtain ⟨t, ht, hpc, hframe⟩ :=
      exists_next_of_jump (i := .jpV0 nnn) (s := s) rfl (toNat_jumpV0Target nnn (s.getV 0x0#4))
    have hle : t.pc.toNat ≤ 0x10FE := by
      have := nnn.isLt
      have := (s.getV 0x0#4).isLt
      omega
    exact ⟨t, ht, hpc, hle, hframe⟩

/-- Settles O17: each answers `advance` followed by a skip on its condition. -/
theorem immediateSkips : Obligations.ImmediateSkips := by
  unfold Obligations.ImmediateSkips
  intro x kk s
  exact ⟨decodeOfEncodeIsIdentity (.seImm x kk) rfl, decodeOfEncodeIsIdentity (.sneImm x kk) rfl,
    exists_next_of_skipIf_eq rfl, exists_next_of_skipIf_ne rfl⟩

/-- Settles O18: each answers `advance` followed by a skip on its condition, and the low nibble tells the words that are
no instruction. -/
theorem registerSkips : Obligations.RegisterSkips := by
  unfold Obligations.RegisterSkips
  intro x y s
  exact ⟨decodeOfEncodeIsIdentity (.seReg x y) rfl, decodeOfEncodeIsIdentity (.sneReg x y) rfl,
    fun n hn => ⟨decode_xyn_eq_error x y (.inl rfl) hn, decode_xyn_eq_error x y (.inr rfl) hn⟩,
    exists_next_of_skipIf_eq rfl, exists_next_of_skipIf_ne rfl⟩

/-! ### CALL and RET -/

/-- Everything but the stack, SP and PC is as before, and the wait for a key is over. -/
def KeepsOutsideStack (s t : State) : Prop :=
  t.awaitingKey = false ∧ KeepsV [] s t ∧ t.i = s.i ∧ KeepsTimers s t ∧ KeepsMemory s t ∧ KeepsScreen s t ∧
    KeepsKeysAndFault s t ∧ t.draws = s.draws

theorem keepsOutsideStack_update (s : State) (stack : Vector Word 16) (sp : Fin 17) (pc : Word) :
    KeepsOutsideStack s { s.advance with stack := stack, sp := sp, pc := pc } :=
  ⟨rfl, fun _ _ => rfl, rfl, ⟨rfl, rfl⟩, fun _ => rfl, ⟨rfl, rfl⟩, ⟨rfl, rfl⟩, rfl⟩

/-- An instruction whose result is a fault takes it on the state before the step (R213). -/
theorem takesFault_of_exec_eq_commit {i : Instr} {r : Except Fault State} {k : Fault} (h : exec i s = commit i s r)
    (hr : r = .error k) : TakesFault i s k := by
  rw [hr, commit_error] at h
  exact h

theorem exec_call (nnn : Addr12) (s : State) :
    exec (.call nnn) s =
      commit (.call nnn) s ((s.advance.push (s.pc + 2#16)).map (fun t => t.setPc (zext16 nnn))) := rfl

theorem exec_ret (s : State) : exec .ret s = commit .ret s s.advance.popPc := rfl

/-- CALL with a free entry (R103). -/
theorem exec_call_of_lt (nnn : Addr12) (h : s.sp.val < 16) :
    exec (.call nnn) s = .next { s.advance with
      stack := s.stack.set s.sp.val (s.pc + 2#16) h
      sp := ⟨s.sp.val + 1, Nat.succ_lt_succ h⟩
      pc := zext16 nnn } := by
  rw [exec_call, push_lt (s := s.advance) _ h]
  rfl

/-- RET with an entry to pop (R100). -/
theorem exec_ret_of_ne (h : s.sp.val ≠ 0) :
    ∃ (n : Fin 17) (w : Word), n.val + 1 = s.sp.val ∧ s.stack[s.sp.val - 1]? = some w ∧
      exec .ret s = .next { s.advance with sp := n, pc := w } := by
  have hpop := popPc_pos (s := s.advance) h
  obtain ⟨_, n, w, hn, hw, ht⟩ := popPc_cases hpop
  exact ⟨n, w, hn, hw, by rw [exec_ret, hpop, ht, commit_ok]⟩

/-- Settles O15: `push` writes the entry at SP or is full. -/
theorem callPushesReturnAddress : Obligations.CallPushesReturnAddress := by
  unfold Obligations.CallPushesReturnAddress
  intro nnn s
  refine ⟨decodeOfEncodeIsIdentity (.call nnn) rfl, fun hlt => ?_, fun hfull => ?_⟩
  · have hpushed := Vector.getElem?_set_self (xs := s.stack) (x := s.pc + 2#16) hlt
    have hother : ∀ k : Nat, k ≠ s.sp.val → (s.stack.set s.sp.val (s.pc + 2#16) hlt)[k]? = s.stack[k]? :=
      fun k hk => Vector.getElem?_set_ne hlt hk.symm
    exact ⟨_, exec_call_of_lt nnn hlt, toNat_zext16 nnn, rfl, hpushed, hother, keepsOutsideStack_update s _ _ _⟩
  · exact takesFault_of_exec_eq_commit (exec_call nnn s) (by rw [push_full (s := s.advance) _ hfull]; rfl)

/-- Settles O16: `popPc` moves the entry below SP into PC or finds none. -/
theorem returnPopsReturnAddress : Obligations.ReturnPopsReturnAddress := by
  unfold Obligations.ReturnPopsReturnAddress
  intro s
  refine ⟨decodeOfEncodeIsIdentity .ret rfl, fun hne => ?_, fun hempty => ?_⟩
  · obtain ⟨n, w, hn, hw, hexec⟩ := exec_ret_of_ne hne
    exact ⟨_, hexec, hw, hn, rfl, keepsOutsideStack_update s s.stack n w⟩
  · exact takesFault_of_exec_eq_commit (exec_ret s) (popPc_empty hempty)

end Sys2Proof.Machine
end

section
/-! SUPPORT. Register arithmetic and logic (spec file 42_alu.md): an instruction that writes one register changes nothing
else (`exists_completesTo_of_setV`), and one that writes a result and then the flag leaves the flag in VF and the result in
Vx unless x is 0xF (`exists_completesTo_of_setVFlag`). -/

namespace Sys2Proof.Machine

variable {s : State}

/-! ### Instructions that write registers alone -/

theorem changesOnlyV_setV (s : State) (x : Nibble) (b : Byte) : ChangesOnlyV [x] s (s.advance.setV x b) := by
  have hregs : KeepsV [x] s (s.advance.setV x b) := fun r hr =>
    State.getV_setV_of_ne _ b (List.ne_of_not_mem_cons hr).symm
  exact ⟨hregs, rfl, ⟨rfl, rfl⟩, ⟨rfl, rfl⟩, fun _ => rfl, ⟨rfl, rfl⟩, ⟨rfl, rfl⟩, rfl⟩

/-- An instruction that writes one register of the advanced state completes with that value there and changes nothing
else. -/
theorem exists_completesTo_of_setV {i : Instr} {x : Nibble} {b : Byte} (h : exec i s = .next (s.advance.setV x b)) :
    ∃ t, CompletesTo i s t ∧ t.getV x = b ∧ ChangesOnlyV [x] s t :=
  ⟨_, ⟨h, rfl, rfl⟩, State.getV_setV_self _ x b, changesOnlyV_setV s x b⟩

theorem changesOnlyV_setVFlag (s : State) (x : Nibble) (b : Byte) (f : Bool) :
    ChangesOnlyV [x, vf] s (s.advance.setVFlag x b f) := by
  have hregs : KeepsV [x, vf] s (s.advance.setVFlag x b f) := fun r hr => by
    obtain ⟨hx, hvf⟩ := List.ne_and_not_mem_of_not_mem_cons hr
    exact State.getV_setVFlag_other _ b f hx (List.ne_of_not_mem_cons hvf)
  exact ⟨hregs, rfl, ⟨rfl, rfl⟩, ⟨rfl, rfl⟩, fun _ => rfl, ⟨rfl, rfl⟩, ⟨rfl, rfl⟩, rfl⟩

/-- An instruction that writes a result and then the flag (R121, the spec's decision D6) completes with the flag in VF,
with the result in Vx unless x is 0xF, and changes nothing else. -/
theorem exists_completesTo_of_setVFlag {i : Instr} {x : Nibble} {b : Byte} {f : Bool}
    (h : exec i s = .next (s.advance.setVFlag x b f)) :
    ∃ t, CompletesTo i s t ∧ ChangesOnlyV [x, vf] s t ∧ (x ≠ vf → t.getV x = b) ∧ t.getV vf = flagByte f :=
  ⟨_, ⟨h, rfl, rfl⟩, changesOnlyV_setVFlag s x b f, State.getV_setVFlag_dest _ b f, State.getV_setVFlag_vf _ x b f⟩

/-! ### Results and flags -/

theorem toNat_flagByte_decide (p : Prop) [Decidable p] : (flagByte (decide p)).toNat = if p then 1 else 0 := by
  by_cases hp : p <;> simp [flagByte, hp]

/-- The carry of an addition (R128). -/
theorem toNat_addCarry (a b : Byte) : (flagByte (addCarry a b)).toNat = if 255 < a.toNat + b.toNat then 1 else 0 :=
  toNat_flagByte_decide _

/-- The not-borrow flag is strict (R129, R131). -/
theorem toNat_subFlag (a b : Byte) : (flagByte (subFlag a b)).toNat = if b.toNat < a.toNat then 1 else 0 :=
  toNat_flagByte_decide _

/-- Bit j after a right shift is bit j + 1 before it (R130). -/
theorem getLsbD_shrResult (a : Byte) (j : Nat) : (shrResult a).getLsbD j = a.getLsbD (j + 1) := by
  rw [shrResult_eq, BitVec.getLsbD_ushiftRight, Nat.add_comm]

/-- A left shift fills bit 0 with 0 (R132). -/
theorem getLsbD_shlResult_zero (a : Byte) : (shlResult a).getLsbD 0 = false := by
  rw [shlResult_eq, BitVec.getLsbD_shiftLeft]
  rfl

/-- Bit j + 1 after a left shift is bit j before it (R132). -/
theorem getLsbD_shlResult_succ (a : Byte) {j : Nat} (hj : j < 7) :
    (shlResult a).getLsbD (j + 1) = a.getLsbD j := by
  have hlt : j + 1 < 8 := Nat.succ_lt_succ hj
  rw [shlResult_eq, BitVec.getLsbD_shiftLeft]
  simp [hlt]

theorem flagByte_shrFlag (a : Byte) : flagByte (shrFlag a) = if a.getLsbD 0 then 1#8 else 0#8 := by
  rw [shrFlag_eq, flagByte]

theorem flagByte_shlFlag (a : Byte) : flagByte (shlFlag a) = if a.getLsbD 7 then 1#8 else 0#8 := by
  rw [shlFlag_eq, flagByte]

/-! ### Flag-writing instructions -/

/-- A subtraction `a - b` written to Vx with its flag (R129, R131). -/
theorem exists_completesTo_of_sub {i : Instr} {x : Nibble} {a b : Byte}
    (h : exec i s = .next (s.advance.setVFlag x (subResult a b) (subFlag a b))) :
    ∃ t, CompletesTo i s t ∧ ChangesOnlyV [x, vf] s t ∧
      (x ≠ vf → (t.getV x).toNat = (a.toNat + 256 - b.toNat) % 256) ∧
      (t.getV vf).toNat = (if b.toNat < a.toNat then 1 else 0) := by
  obtain ⟨t, hdone, hframe, hresult, hflag⟩ := exists_completesTo_of_setVFlag h
  refine ⟨t, hdone, hframe, fun hx => ?_, ?_⟩
  · rw [hresult hx, toNat_subResult]
  · rw [hflag, toNat_subFlag]

/-- Settles O22: the result and the carry of `setVFlag`, as naturals. -/
theorem addRegistersSetsCarry : Obligations.AddRegistersSetsCarry := by
  unfold Obligations.AddRegistersSetsCarry
  intro x y s
  obtain ⟨t, hdone, hframe, hresult, hflag⟩ := exists_completesTo_of_setVFlag (i := .addReg x y) (s := s) rfl
  refine ⟨decodeOfEncodeIsIdentity (.addReg x y) rfl, t, hdone, hframe, fun hx => ?_, ?_⟩
  · rw [hresult hx, toNat_addResult]
  · rw [hflag, toNat_addCarry]

/-- Settles O23: SUB and SUBN are one subtraction with the operands exchanged. -/
theorem subtractionsSetStrictFlag : Obligations.SubtractionsSetStrictFlag := by
  unfold Obligations.SubtractionsSetStrictFlag
  intro x y s
  exact ⟨⟨decodeOfEncodeIsIdentity (.subReg x y) rfl, exists_completesTo_of_sub rfl⟩,
    ⟨decodeOfEncodeIsIdentity (.subn x y) rfl, exists_completesTo_of_sub rfl⟩⟩

/-- Settles O24: the bits of the two shifted bytes, and the bit shifted out as the flag. -/
theorem shiftsMoveVxByOneBit : Obligations.ShiftsMoveVxByOneBit := by
  unfold Obligations.ShiftsMoveVxByOneBit
  intro x y s
  refine ⟨⟨decodeOfEncodeIsIdentity (.shr x y) rfl, ?_⟩, ⟨decodeOfEncodeIsIdentity (.shl x y) rfl, ?_⟩⟩
  · obtain ⟨t, hdone, hframe, hresult, hflag⟩ := exists_completesTo_of_setVFlag (i := .shr x y) (s := s) rfl
    exact ⟨t, hdone, hframe, fun hx j => hresult hx ▸ getLsbD_shrResult _ j, hflag.trans (flagByte_shrFlag _)⟩
  · obtain ⟨t, hdone, hframe, hresult, hflag⟩ := exists_completesTo_of_setVFlag (i := .shl x y) (s := s) rfl
    refine ⟨t, hdone, hframe, fun hx => ?_, hflag.trans (flagByte_shlFlag _)⟩
    rw [hresult hx]
    exact ⟨getLsbD_shlResult_zero _, fun j hj => getLsbD_shlResult_succ _ hj⟩

/-! ### Instructions that write one register -/

/-- Settles O19: one register write of the operand. -/
theorem loadImmediate : Obligations.LoadImmediate := by
  unfold Obligations.LoadImmediate
  intro x kk s
  exact ⟨decodeOfEncodeIsIdentity (.ldImm x kk) rfl, exists_completesTo_of_setV rfl⟩

/-- Settles O20: one register write of the wrapped sum. -/
theorem addImmediateWrapsWithoutFlag : Obligations.AddImmediateWrapsWithoutFlag := by
  unfold Obligations.AddImmediateWrapsWithoutFlag
  intro x kk s
  obtain ⟨t, hdone, hresult, hframe⟩ := exists_completesTo_of_setV (i := .addImm x kk) (s := s) rfl
  exact ⟨decodeOfEncodeIsIdentity (.addImm x kk) rfl, t, hdone, hresult ▸ toNat_addResult _ kk, hframe⟩

/-- A bitwise operation written to Vx, from a law for its bits (R125 to R127). -/
theorem exists_completesTo_of_bitwise {i : Instr} {x : Nibble} {b : Byte} {bit : Nat → Bool}
    (h : exec i s = .next (s.advance.setV x b)) (hbits : ∀ j, b.getLsbD j = bit j) :
    ∃ t, CompletesTo i s t ∧ ChangesOnlyV [x] s t ∧ ∀ j : Nat, (t.getV x).getLsbD j = bit j := by
  obtain ⟨t, hdone, hresult, hframe⟩ := exists_completesTo_of_setV h
  exact ⟨t, hdone, hframe, fun j => hresult ▸ hbits j⟩

/-- Settles O21: one register write each, and the library's law for the bits of OR, AND and XOR. -/
theorem copyAndLogicKeepVf : Obligations.CopyAndLogicKeepVf := by
  unfold Obligations.CopyAndLogicKeepVf
  intro x y s
  exact ⟨⟨decodeOfEncodeIsIdentity (.ldReg x y) rfl, exists_completesTo_of_setV rfl⟩,
    ⟨decodeOfEncodeIsIdentity (.orReg x y) rfl, exists_completesTo_of_bitwise rfl fun _ => BitVec.getLsbD_or⟩,
    ⟨decodeOfEncodeIsIdentity (.andReg x y) rfl, exists_completesTo_of_bitwise rfl fun _ => BitVec.getLsbD_and⟩,
    ⟨decodeOfEncodeIsIdentity (.xorReg x y) rfl, exists_completesTo_of_bitwise rfl fun _ => BitVec.getLsbD_xor⟩⟩

theorem exec_rnd (x : Nibble) (kk : Byte) (s : State) :
    exec (.rnd x kk) s =
      .next { s.advance.setV x (Config.rnd s.draws &&& kk) with draws := s.draws + 1 } := rfl

/-- A mask clears the bits where it is 0 (R133). -/
theorem getLsbD_and_eq_false {a kk : Byte} {j : Nat} (h : kk.getLsbD j = false) : (a &&& kk).getLsbD j = false := by
  rw [BitVec.getLsbD_and, h, Bool.and_false]

/-- Settles O25: the register write of the masked draw, with the draw counter moved on besides. -/
theorem randomIsMaskedDraw : Obligations.RandomIsMaskedDraw := by
  unfold Obligations.RandomIsMaskedDraw
  intro x kk s
  have hresult := State.getV_setV_self s.advance x (Config.rnd s.draws &&& kk)
  obtain ⟨hregs, hi, hstack, htimers, hmem, hscreen, hkeys, -⟩ :=
    changesOnlyV_setV s x (Config.rnd s.draws &&& kk)
  exact ⟨decodeOfEncodeIsIdentity (.rnd x kk) rfl, _, ⟨exec_rnd x kk s, rfl, rfl⟩, hresult, rfl,
    fun j hj => (congrArg (·.getLsbD j) hresult).trans (getLsbD_and_eq_false hj), hregs, hi, hstack, htimers, hmem,
    hscreen, hkeys⟩

end Sys2Proof.Machine
end

section
/-! SUPPORT. The index register and memory transfer (spec file 43_index_memory.md): an instruction that writes I changes
nothing else (`exists_completesTo_of_setI`); the BCD store and the block store are one run of checked writes from I on
(`exists_completesTo_of_memWrites`), and the block load is one run of checked reads (`exec_ldVxMem_of_lt`). -/

namespace Sys2Proof.Machine

variable {s : State} {i : Instr}

/-! ### Instructions that write I alone -/

theorem keepsOutsideRegsAndI_update (s : State) (v : Vector Byte 16) (w : Word) :
    KeepsOutsideRegsAndI s { s.advance with v := v, i := w } :=
  ⟨⟨rfl, rfl⟩, ⟨rfl, rfl⟩, fun _ => rfl, ⟨rfl, rfl⟩, ⟨rfl, rfl⟩, rfl⟩

/-- An instruction that writes I of the advanced state completes with that value there and changes nothing else. -/
theorem exists_completesTo_of_setI {w : Word} {n : Nat} (h : exec i s = .next { s.advance with i := w })
    (hw : w.toNat = n) : ∃ t, CompletesTo i s t ∧ t.i.toNat = n ∧ KeepsV [] s t ∧ KeepsOutsideRegsAndI s t :=
  ⟨_, ⟨h, rfl, rfl⟩, hw, fun _ _ => rfl, keepsOutsideRegsAndI_update s s.v w⟩

/-- Settles O26: one write of the zero-extended operand to I. -/
theorem loadIndex : Obligations.LoadIndex := by
  unfold Obligations.LoadIndex
  intro nnn s
  exact ⟨decodeOfEncodeIsIdentity (.ldI nnn) rfl, exists_completesTo_of_setI rfl (toNat_zext16 nnn)⟩

/-- Settles O28: one write of the glyph address to I, and the address as a number. -/
theorem glyphAddressOfLowNibble : Obligations.GlyphAddressOfLowNibble := by
  unfold Obligations.GlyphAddressOfLowNibble
  refine ⟨fun x s => ?_, fun p b _ => ⟨toNat_glyphAddress p b, ?_⟩⟩
  · exact ⟨decodeOfEncodeIsIdentity (.ldF x) rfl, exists_completesTo_of_setI rfl (toNat_glyphAddress specParams _)⟩
  · rw [toNat_glyphAddress]
    omega

theorem addIndex_of_le {b : Byte} (h : s.i.toNat + b.toNat ≤ 0xFFFF) :
    s.addIndex b = .ok { s with i := BitVec.ofNat 16 (s.i.toNat + b.toNat) } :=
  if_neg (Nat.not_lt.mpr h)

theorem addIndex_of_lt {b : Byte} (h : 0xFFFF < s.i.toNat + b.toNat) :
    s.addIndex b = .error (.indexOverflow (s.i.toNat + b.toNat)) :=
  if_pos h

theorem exec_addI (x : Nibble) (s : State) :
    exec (.addI x) s = commit (.addI x) s (s.advance.addIndex (s.getV x)) := rfl

/-- Settles O27: one write of the sum to I, or the overflow; neither writes a register. -/
theorem addIndexKeepsVf : Obligations.AddIndexKeepsVf := by
  unfold Obligations.AddIndexKeepsVf
  intro x s
  refine ⟨decodeOfEncodeIsIdentity (.addI x) rfl, fun hfits => ?_, fun hover => ?_⟩
  · have hexec : exec (.addI x) s = .next { s.advance with i := BitVec.ofNat 16 (s.i.toNat + (s.getV x).toNat) } := by
      rw [exec_addI, addIndex_of_le (s := s.advance) hfits]
      rfl
    exact exists_completesTo_of_setI hexec (Nat.mod_eq_of_lt (Nat.lt_succ_of_le hfits))
  · exact takesFault_of_exec_eq_commit (exec_addI x s) (addIndex_of_lt (s := s.advance) hover)

/-! ### Stores from I on -/

/-- Everything but memory, PC and `awaiting_key` is as before. -/
def KeepsOutsideMemory (s t : State) : Prop :=
  KeepsV [] s t ∧ t.i = s.i ∧ KeepsStack s t ∧ KeepsTimers s t ∧ KeepsScreen s t ∧ KeepsKeysAndFault s t ∧
    t.draws = s.draws

theorem keepsOutsideMemory_setMem (s : State) (m : Memory) : KeepsOutsideMemory s { s.advance with mem := m } :=
  ⟨fun _ _ => rfl, rfl, ⟨rfl, rfl⟩, ⟨rfl, rfl⟩, ⟨rfl, rfl⟩, ⟨rfl, rfl⟩, rfl⟩

/-- The `k`-th of several bytes stored from `a` on is read back at `a + k`. -/
theorem memLookup_memStoreAll_add (p : Params) (m : Memory) (a : Nat) {bs : List Byte} {k : Nat} {b : Byte}
    (h : bs[k]? = some b) : memLookup p (memStoreAll p m a bs) (a + k) = b := by
  rw [memLookup_memStoreAll, if_pos (Nat.le_add_right a k), Nat.add_sub_cancel_left, h, Option.getD_some]

section
variable {bs : List Byte} (h : exec i s = commit i s (s.advance.memWrites specParams s.indexAddr bs))
include h

/-- Stores inside program memory leave the `k`-th byte at I + k and change nothing else (R154, D7). -/
theorem exists_completesTo_of_memWrites (hlo : 0x200 ≤ s.indexAddr) (hhi : s.indexAddr + bs.length ≤ 0x1000) :
    ∃ t, CompletesTo i s t ∧ (∀ {k : Nat} {b : Byte}, bs[k]? = some b → t.byteAt specParams (s.indexAddr + k) = b) ∧
      KeepsMemoryBut s.indexAddr bs.length s t ∧ KeepsOutsideMemory s t := by
  rw [memWrites_ok bs hhi (.inl hlo), commit_ok] at h
  exact ⟨_, ⟨h, rfl, rfl⟩, memLookup_memStoreAll_add specParams s.mem s.indexAddr,
    fun _ => memLookup_memStoreAll_outside specParams bs s.mem, keepsOutsideMemory_setMem s _⟩

/-- Stores that begin below 0x200 raise ReservedWrite at I (D2). -/
theorem takesFault_reserved_of_memWrites (hne : bs ≠ []) (hlo : s.indexAddr < 0x200) :
    TakesFault i s (.reservedWrite s.indexAddr) :=
  takesFault_of_exec_eq_commit h (memWrites_reserved hne hlo rfl)

/-- Stores from program memory on that run past memory raise AddressOutOfRange at the lowest address past it (D1). -/
theorem takesFault_outside_of_memWrites (hne : bs ≠ []) (hlo : 0x200 ≤ s.indexAddr)
    (hhi : 0x1000 < s.indexAddr + bs.length) : TakesFault i s (.addressOutOfRange (max s.indexAddr 0x1000)) :=
  takesFault_of_exec_eq_commit h (memWrites_outside hne hhi (.inl hlo))

end

theorem exec_ldB (x : Nibble) (s : State) :
    exec (.ldB x) s = commit (.ldB x) s (s.advance.memWrites specParams s.indexAddr (bcdDigits (s.getV x))) := rfl

/-- The hundreds, tens and ones of a byte, as numbers (R153). -/
theorem bcdDigits_eq (b : Byte) : ∃ hundreds tens ones : Byte, bcdDigits b = [hundreds, tens, ones] ∧
    hundreds.toNat = b.toNat / 100 ∧ tens.toNat = b.toNat / 10 % 10 ∧ ones.toNat = b.toNat % 10 := by
  have hb := b.isLt
  refine ⟨_, _, _, rfl, ?_, ?_, ?_⟩ <;> exact Nat.mod_eq_of_lt (by omega)

/-- Settles O31: the three digits are stored from I on. -/
theorem bcdStoreWritesDigits : Obligations.BcdStoreWritesDigits := by
  unfold Obligations.BcdStoreWritesDigits
  intro x s
  obtain ⟨hundreds, tens, ones, hdigits, hhundreds, htens, hones⟩ := bcdDigits_eq (s.getV x)
  have hexec := exec_ldB x s
  rw [hdigits] at hexec
  refine ⟨decodeOfEncodeIsIdentity (.ldB x) rfl, fun hlo hhi => ?_, fun hlow => ?_, fun hhigh => ?_⟩
  · obtain ⟨t, hdone, hbytes, hmem, hframe⟩ := exists_completesTo_of_memWrites hexec hlo (Nat.succ_le_of_lt hhi)
    exact ⟨t, hdone, hbytes (k := 0) rfl ▸ hhundreds, hbytes (k := 1) rfl ▸ htens, hbytes (k := 2) rfl ▸ hones, hmem,
      hframe⟩
  · exact takesFault_reserved_of_memWrites hexec (List.cons_ne_nil _ _) hlow
  · exact takesFault_outside_of_memWrites hexec (List.cons_ne_nil _ _) (by omega) (Nat.lt_succ_of_le hhigh)

theorem exec_ldMemVx (x : Nibble) (s : State) :
    exec (.ldMemVx x) s = commit (.ldMemVx x) s (s.advance.memWrites specParams s.indexAddr (s.regRange x)) := rfl

theorem regRange_ne_nil (s : State) (x : Nibble) : s.regRange x ≠ [] :=
  List.ne_nil_of_length_pos (length_regRange (s := s) x ▸ Nat.succ_pos _)

/-- Settles O32: the registers of the range are stored from I on. -/
theorem blockStoreWritesRange : Obligations.BlockStoreWritesRange := by
  unfold Obligations.BlockStoreWritesRange
  intro x s
  have hlen : (s.regRange x).length = x.toNat + 1 := length_regRange x
  refine ⟨decodeOfEncodeIsIdentity (.ldMemVx x) rfl, fun hlo hhi => ?_, fun hlow => ?_, fun hhigh => ?_⟩
  · obtain ⟨t, hdone, hbytes, hmem, hframe⟩ :=
      exists_completesTo_of_memWrites (exec_ldMemVx x s) hlo (by omega)
    exact ⟨t, hdone, fun k hk => hbytes (getElem?_regRange hk), hlen ▸ hmem, hframe⟩
  · exact takesFault_reserved_of_memWrites (exec_ldMemVx x s) (regRange_ne_nil s x) hlow
  · have hlo : 0x200 ≤ s.indexAddr := by
      have := x.isLt
      omega
    exact takesFault_outside_of_memWrites (exec_ldMemVx x s) (regRange_ne_nil s x) hlo (by omega)

/-! ### The block load -/

/-- The bytes a block load reads: x + 1 of them from I on (R155). -/
def State.loadedBytes (s : State) (x : Nibble) : List Byte :=
  (List.range (rangeSize x)).map (fun k => s.byteAt specParams (s.indexAddr + k))

theorem getElem?_loadedBytes {x k : Nibble} (h : k.toNat ≤ x.toNat) :
    (s.loadedBytes x)[k.toNat]? = some (s.byteAt specParams (s.indexAddr + k.toNat)) := by
  have hk : k.toNat < rangeSize x := Nat.lt_succ_of_le h
  simp [State.loadedBytes, hk]

theorem getElem?_loadedBytes_of_lt {x k : Nibble} (h : x.toNat < k.toNat) : (s.loadedBytes x)[k.toNat]? = none :=
  List.getElem?_eq_none (by simpa [State.loadedBytes, rangeSize] using h)

theorem exec_ldVxMem (x : Nibble) (s : State) :
    exec (.ldVxMem x) s =
      commit (.ldVxMem x) s ((s.advance.memReads specParams s.indexAddr (rangeSize x)).map s.advance.setVs) := rfl

/-- The block load inside memory. -/
theorem exec_ldVxMem_of_lt {x : Nibble} (h : s.indexAddr + x.toNat < 0x1000) :
    exec (.ldVxMem x) s = .next (s.advance.setVs (s.loadedBytes x)) := by
  rw [exec_ldVxMem, memReads_ok (Nat.succ_le_of_lt h)]
  rfl

/-- Settles O33: one write of the bytes read to the registers of the range, or the fault of the reads. -/
theorem blockLoadReadsRange : Obligations.BlockLoadReadsRange := by
  unfold Obligations.BlockLoadReadsRange
  intro x s
  refine ⟨decodeOfEncodeIsIdentity (.ldVxMem x) rfl, fun hlt => ?_, fun hge => ?_⟩
  · refine ⟨_, ⟨exec_ldVxMem_of_lt hlt, rfl, rfl⟩, fun k hk => ?_, fun k hk => ?_, rfl,
      keepsOutsideRegsAndI_update s _ s.i⟩
    · rw [State.getV_setVs, getElem?_loadedBytes hk, Option.getD_some]
    · rw [State.getV_setVs, getElem?_loadedBytes_of_lt hk, Option.getD_none, State.getV_advance]
  · refine takesFault_of_exec_eq_commit (exec_ldVxMem x s) ?_
    rw [memReads_error (n := rangeSize x) (Nat.succ_ne_zero x.toNat) (Nat.lt_succ_of_le hge)]
    rfl

/-- Settles O34: the store leaves V[k] at I + k and keeps I, and the load reads I + k into V[k]. -/
theorem storeThenLoadRestoresRegisters : Obligations.StoreThenLoadRestoresRegisters := by
  unfold Obligations.StoreThenLoadRestoresRegisters
  intro x s hlo hhi
  obtain ⟨-, hstore, -, -⟩ := blockStoreWritesRange x s
  obtain ⟨t, ⟨hexec, -, -⟩, hbytes, -, -, hi, -⟩ := hstore hlo hhi
  have hindex : t.indexAddr = s.indexAddr := congrArg BitVec.toNat hi
  refine ⟨t, hexec, fun v' => ?_⟩
  obtain ⟨-, hload, -⟩ := blockLoadReadsRange x { t with v := v' }
  obtain ⟨u, ⟨hexec', -, -⟩, hregs, -⟩ := hload (show t.indexAddr + x.toNat < 0x1000 from hindex ▸ hhi)
  refine ⟨u, hexec', fun k hk => ?_⟩
  calc u.getV k = t.byteAt specParams (t.indexAddr + k.toNat) := hregs k hk
    _ = s.getV k := by rw [hindex, hbytes k hk]

end Sys2Proof.Machine
end

section
/-! SUPPORT. The display (spec file 44_display.md). CLS and DRW leave what is neither a register nor the screen
(`keepsOutsideRegsAndScreen_update`). A draw toggles the pixels under the sprite and reports whether one of them was set
(`getPixel_drawn_ne_iff`, `drawn_collides_iff`); a second draw covers the same pixels, because the first keeps the
coordinates and the rows (`spriteAt_of_frame`). -/

namespace Sys2Proof.Machine

variable {s t : State} {x y n : Nibble}

/-! ### The frame of CLS and DRW -/

/-- Everything but the registers, the framebuffer, `needs_redraw`, PC and `awaiting_key` is as before. -/
def KeepsOutsideRegsAndScreen (s t : State) : Prop :=
  t.i = s.i ∧ KeepsStack s t ∧ KeepsTimers s t ∧ KeepsMemory s t ∧ KeepsKeysAndFault s t ∧ t.draws = s.draws

theorem keepsOutsideRegsAndScreen_update (s : State) (v : Vector Byte 16) (d : Display) :
    KeepsOutsideRegsAndScreen s { s.advance with v := v, disp := d, needsRedraw := true } :=
  ⟨rfl, ⟨rfl, rfl⟩, ⟨rfl, rfl⟩, fun _ => rfl, ⟨rfl, rfl⟩, rfl⟩

theorem exec_cls (s : State) : exec .cls s = .next { s.advance with disp := clearDisplay, needsRedraw := true } := rfl

/-- Settles O35: one write of the clear framebuffer, on whatever screen. -/
theorem clearScreen : Obligations.ClearScreen := by
  unfold Obligations.ClearScreen
  intro s
  exact ⟨decodeOfEncodeIsIdentity .cls rfl, _, ⟨exec_cls s, rfl, rfl⟩, getPixel_clearDisplay, rfl, fun _ _ => rfl,
    keepsOutsideRegsAndScreen_update s s.v clearDisplay⟩

/-! ### The pixels under a sprite -/

theorem mem_allHits_map_range {xs ys m : Nat} {row : Nat → Byte} {c : Fin 64} {r : Fin 32} :
    (c, r) ∈ allHits xs ys ((List.range m).map row) ↔ SpriteCovers xs ys row m c r := by
  have hrow : ∀ k, k < m → ((List.range m).map row)[k]?.getD 0#8 = row k := fun k hk => by simp [hk]
  rw [mem_allHits, List.length_map, List.length_range]
  exact exists_congr fun k => exists_congr fun j => and_congr_right fun hk => by rw [hrow k hk]

/-- A byte other than 0 has a bit set, counted from the left as a sprite's columns are. -/
theorem exists_getLsbD_of_ne_zero {b : Byte} (h : b ≠ 0#8) : ∃ j, j < 8 ∧ b.getLsbD (7 - j) = true := by
  by_contra hnone
  refine h (BitVec.eq_of_getLsbD_eq fun i hi => ?_)
  have hbit : ¬ b.getLsbD (7 - (7 - i)) = true := fun hset => hnone ⟨7 - i, by omega, hset⟩
  rw [show 7 - (7 - i) = i by omega] at hbit
  simpa using hbit

/-- A sprite covers some pixel exactly when it has a bit set. -/
theorem exists_spriteCovers_iff {xs ys m : Nat} {row : Nat → Byte} :
    (∃ (c : Fin 64) (r : Fin 32), SpriteCovers xs ys row m c r) ↔ ∃ k, k < m ∧ row k ≠ 0#8 := by
  constructor
  · rintro ⟨c, r, k, j, hk, -, hset, -⟩
    refine ⟨k, hk, fun hzero => ?_⟩
    simp [hzero] at hset
  · rintro ⟨k, hk, hne⟩
    obtain ⟨j, hj, hset⟩ := exists_getLsbD_of_ne_zero hne
    exact ⟨Fin.ofNat 64 (xs + j), Fin.ofNat 32 (ys + k), k, j, hk, hj, hset, rfl, rfl⟩

/-! ### What a draw leaves -/

/-- Pixel (c, r) is under a 1 bit of the sprite that `DRW Vx, Vy, n` draws from `s`. -/
abbrev State.SpriteAt (s : State) (x y n : Nibble) (c : Fin 64) (r : Fin 32) : Prop :=
  SpriteCovers (drawStart s x 64) (drawStart s y 32) (spriteRow s) n.toNat c r

/-- The framebuffer and the collision flag that `DRW Vx, Vy, n` leaves from `s`. -/
def State.drawn (s : State) (x y n : Nibble) : Canvas :=
  drawRows (drawStart s x 64) (drawStart s y 32) ((List.range n.toNat).map (spriteRow s)) (s.disp, false)

theorem length_map_range_le (n : Nibble) (row : Nat → Byte) : ((List.range n.toNat).map row).length ≤ 32 := by
  have := n.isLt
  simp only [List.length_map, List.length_range]
  omega

/-- A draw changes exactly the pixels under the sprite. -/
theorem getPixel_drawn_ne_iff (c : Fin 64) (r : Fin 32) :
    getPixel (s.drawn x y n).1 c r ≠ getPixel s.disp c r ↔ s.SpriteAt x y n c r := by
  obtain ⟨hpixel, -⟩ := drawRows_spec (xs := drawStart s x 64) (ys := drawStart s y 32)
    (length_map_range_le n (spriteRow s)) s.disp
  rw [State.drawn, hpixel, State.SpriteAt, ← mem_allHits_map_range]
  split_ifs with hmem <;> simp [hmem]

/-- A draw collides exactly when a pixel under the sprite was set. -/
theorem drawn_collides_iff : (s.drawn x y n).2 = true ↔
    ∃ (c : Fin 64) (r : Fin 32), getPixel s.disp c r = true ∧ s.SpriteAt x y n c r := by
  obtain ⟨-, hflag⟩ := drawRows_spec (xs := drawStart s x 64) (ys := drawStart s y 32)
    (length_map_range_le n (spriteRow s)) s.disp
  rw [State.drawn, hflag, Prod.exists]
  simp only [mem_allHits_map_range, and_comm]

/-- A flag byte is 1 or 0 as what the flag says holds or not. -/
theorem flagByte_cases {f : Bool} {P : Prop} (h : f = true ↔ P) :
    (flagByte f = 1#8 ∧ P) ∨ (flagByte f = 0#8 ∧ ¬ P) := by
  cases f with
  | true => exact .inl ⟨rfl, h.mp rfl⟩
  | false => exact .inr ⟨rfl, fun hP => Bool.false_ne_true (h.mpr hP)⟩

/-! ### The instruction -/

theorem exec_drw (x y n : Nibble) (s : State) :
    exec (.drw x y n) s = commit (.drw x y n) s (drawSprite specParams x y n s.advance) := rfl

/-- VF is reset before V[x] is read, so that x = 0xF starts at 0 (R171, D23). -/
theorem getV_reset_mod (s : State) (x : Nibble) (size : Nat) :
    ((s.advance.setV vf 0#8).getV x).toNat % size = drawStart s x size := by
  by_cases hx : x = vf
  · subst hx
    simp [drawStart]
  · rw [State.getV_setV_of_ne _ _ (Ne.symm hx), drawStart, if_neg hx, State.getV_advance]

theorem setV_setV (s : State) (x : Nibble) (a b : Byte) : (s.setV x a).setV x b = s.setV x b := by
  simp [State.setV]

/-- The draw, where every row is in memory or there is none. -/
theorem exec_drw_of_le (h : n = 0#4 ∨ s.indexAddr + n.toNat ≤ 0x1000) :
    exec (.drw x y n) s = .next { s.advance.setV vf (flagByte (s.drawn x y n).2) with
      disp := (s.drawn x y n).1
      needsRedraw := true } := by
  obtain ⟨rows, hrows, hdraw⟩ := drawSprite_ok (p := specParams) (x := x) (y := y) (s := s.advance)
    (h.imp_left (congrArg BitVec.toNat))
  rw [exec_drw, hdraw, commit_ok, setV_setV, getV_reset_mod, getV_reset_mod, hrows]
  rfl

/-- A draw with a row outside memory reports the lowest address past it. -/
theorem drawSprite_error {p : Params} (hn : n.toNat ≠ 0) (h : memSize < s.indexAddr + n.toNat) :
    drawSprite p x y n s = .error (.addressOutOfRange (max s.indexAddr memSize)) := by
  have hread : (s.setV vf 0#8).memReads p (s.setV vf 0#8).indexAddr n.toNat = _ := memReads_error hn h
  unfold drawSprite
  dsimp only
  rw [hread]
  rfl

/-- Settles O36: a fold of toggles over the pixels under the sprite's 1 bits, or the fault of the reads. -/
theorem drawTogglesExactlyTheSprite : Obligations.DrawTogglesExactlyTheSprite := by
  unfold Obligations.DrawTogglesExactlyTheSprite
  intro x y n s
  refine ⟨decodeOfEncodeIsIdentity (.drw x y n) rfl, fun hrows => ?_, fun hn hout => ?_⟩
  · have hvf := State.getV_setV_self s.advance vf (flagByte (s.drawn x y n).2)
    obtain ⟨hregs, -⟩ := changesOnlyV_setV s vf (flagByte (s.drawn x y n).2)
    refine ⟨_, ⟨exec_drw_of_le hrows, rfl, rfl⟩, getPixel_drawn_ne_iff, ?_, rfl, hregs,
      keepsOutsideRegsAndScreen_update s _ _⟩
    exact hvf.symm ▸ flagByte_cases drawn_collides_iff
  · exact takesFault_of_exec_eq_commit (exec_drw x y n s)
      (drawSprite_error (s := s.advance) (fun h0 => hn (BitVec.eq_of_toNat_eq h0)) hout)

/-! ### The second draw -/

/-- The framebuffers differ at exactly the pixels of which `P` holds. -/
def TogglesExactly (P : Fin 64 → Fin 32 → Prop) (d d' : Display) : Prop :=
  ∀ (c : Fin 64) (r : Fin 32), getPixel d' c r ≠ getPixel d c r ↔ P c r

/-- Toggling the same pixels twice restores the framebuffer. -/
theorem eq_of_togglesExactly_twice {P : Fin 64 → Fin 32 → Prop} {d d' d'' : Display} (h : TogglesExactly P d d')
    (h' : TogglesExactly P d' d'') : d'' = d := by
  refine display_ext fun c r => ?_
  by_cases hP : P c r
  · rw [Bool.eq_not.mpr ((h' c r).mpr hP), Bool.eq_not.mpr ((h c r).mpr hP), Bool.not_not]
  · exact (of_not_not (mt (h' c r).mp hP)).trans (of_not_not (mt (h c r).mp hP))

/-- The toggled pixels that are set are those that were clear. -/
theorem set_after_iff_clear_before {P : Fin 64 → Fin 32 → Prop} {d d' : Display} (h : TogglesExactly P d d') :
    (∃ (c : Fin 64) (r : Fin 32), getPixel d' c r = true ∧ P c r) ↔
      ∃ (c : Fin 64) (r : Fin 32), getPixel d c r = false ∧ P c r := by
  refine exists_congr fun c => exists_congr fun r => and_congr_left fun hP => ?_
  rw [Bool.eq_not.mpr ((h c r).mpr hP), Bool.not_eq_true']

/-- A byte that is 1 where `P` holds and 0 where not. -/
theorem eq_one_iff_of_flag {b : Byte} {P : Prop} (h : (b = 1#8 ∧ P) ∨ (b = 0#8 ∧ ¬ P)) : b = 1#8 ↔ P := by
  rcases h with ⟨rfl, hP⟩ | ⟨rfl, hP⟩ <;> simp [hP]

theorem drawStart_of_keepsV (h : KeepsV [vf] s t) (x : Nibble) (size : Nat) :
    drawStart t x size = drawStart s x size := by
  by_cases hx : x = vf
  · rw [drawStart, drawStart, if_pos hx, if_pos hx]
  · rw [drawStart, drawStart, h x (by simpa using hx)]

/-- A state with the same registers but VF, I and memory draws the same sprite at the same place. -/
theorem spriteAt_of_frame (hregs : KeepsV [vf] s t) (hi : t.i = s.i) (hmem : KeepsMemory s t) :
    t.SpriteAt x y n = s.SpriteAt x y n := by
  have hrow : spriteRow t = spriteRow s := funext fun k => by rw [spriteRow, spriteRow, hi, hmem]
  funext c r
  rw [State.SpriteAt, drawStart_of_keepsV hregs, drawStart_of_keepsV hregs, hrow]

/-- Settles O37: both draws toggle the same pixels, so a pixel under the sprite that the second finds set was clear. -/
theorem drawTwiceRestoresScreen : Obligations.DrawTwiceRestoresScreen := by
  unfold Obligations.DrawTwiceRestoresScreen
  intro x y n s hrows
  obtain ⟨-, hdraw, -⟩ := drawTogglesExactlyTheSprite x y n s
  obtain ⟨t, ⟨hexec, -, -⟩, hpixel, hflag, -, hregs, hi, -, -, hmem, -⟩ := hdraw hrows
  have hindex : t.indexAddr = s.indexAddr := congrArg BitVec.toNat hi
  obtain ⟨-, hdraw', -⟩ := drawTogglesExactlyTheSprite x y n t
  obtain ⟨u, ⟨hexec', -, -⟩, hpixel', hflag', -⟩ := hdraw' (hindex.symm ▸ hrows)
  have hsprite : t.SpriteAt x y n = s.SpriteAt x y n := spriteAt_of_frame hregs hi hmem
  have hfirst : TogglesExactly (s.SpriteAt x y n) s.disp t.disp := hpixel
  have hsecond : TogglesExactly (s.SpriteAt x y n) t.disp u.disp := hsprite ▸ hpixel'
  have hcollision :
      (u.getV vf = 1#8 ∧ ∃ (c : Fin 64) (r : Fin 32), getPixel s.disp c r = false ∧ s.SpriteAt x y n c r) ∨
        (u.getV vf = 0#8 ∧ ¬ ∃ (c : Fin 64) (r : Fin 32), getPixel s.disp c r = false ∧ s.SpriteAt x y n c r) := by
    rw [← set_after_iff_clear_before hfirst, ← hsprite]
    exact hflag'
  refine ⟨t, u, hexec, hexec', eq_of_togglesExactly_twice hfirst hsecond,
    hcollision.imp_right (And.imp_right fun hnone c r hcover => ?_), fun hclear => ?_⟩
  · exact Bool.eq_true_of_not_eq_false fun hfalse => hnone ⟨c, r, hfalse, hcover⟩
  · have hnone : ¬ ∃ (c : Fin 64) (r : Fin 32), getPixel s.disp c r = true ∧ s.SpriteAt x y n c r :=
      (eq_one_iff_of_flag hflag).not.mp (by simp [hclear])
    calc u.getV vf = 1#8
      _ ↔ ∃ (c : Fin 64) (r : Fin 32), getPixel s.disp c r = false ∧ s.SpriteAt x y n c r :=
        eq_one_iff_of_flag hcollision
      _ ↔ ∃ (c : Fin 64) (r : Fin 32), s.SpriteAt x y n c r :=
        exists_congr fun c => exists_congr fun r => and_iff_right_of_imp fun hcover =>
          Bool.eq_false_of_not_eq_true fun hset => hnone ⟨c, r, hset, hcover⟩
      _ ↔ ∃ k, k < n.toNat ∧ spriteRow s k ≠ 0#8 := exists_spriteCovers_iff

end Sys2Proof.Machine
end

section
/-! SUPPORT. Keypad and timer instructions (spec file 45_keys_timers.md). SKP and SKNP are one result, the key's state,
with the skip on it or on its negation; LD Vx, K is one write of the least key down (`exec_ldVxK_of_down`) or the state
before with the wait recorded (`exec_ldVxK_of_none`); a write to a timer leaves the rest
(`keepsOutsideTimers_update`). -/

namespace Sys2Proof.Machine

variable {s : State} {x k : Nibble}

/-! ### Skips on a key -/

theorem exec_skp (x : Nibble) (s : State) :
    exec (.skp x) s = commit (.skp x) s ((s.keyOf (s.getV x)).map (fun down => s.advance.skipIf down)) := rfl

theorem exec_sknp (x : Nibble) (s : State) :
    exec (.sknp x) s = commit (.sknp x) s ((s.keyOf (s.getV x)).map (fun down => s.advance.skipIf (!down))) := rfl

theorem exec_skp_of_key (h : (s.getV x).toNat = k.toNat) :
    exec (.skp x) s = .next (s.advance.skipIf (s.key k)) := by
  rw [exec_skp, keyOf_ok h]
  rfl

theorem exec_sknp_of_key (h : (s.getV x).toNat = k.toNat) :
    exec (.sknp x) s = .next (s.advance.skipIf (!s.key k)) := by
  rw [exec_sknp, keyOf_ok h]
  rfl

/-- An instruction that skips from the advanced state unless the condition holds. -/
theorem exists_next_of_skipIf_not {i : Instr} {c : Bool} (h : exec i s = .next (s.advance.skipIf (!c))) :
    ∃ t, exec i s = .next t ∧ t.pc = (if c then s.pc + 2#16 else s.pc + 4#16) ∧ t.awaitingKey = false ∧
      ChangesOnlyV [] s t := by
  cases c with
  | true => exact exists_next_of_skipIf h
  | false => exact exists_next_of_skipIf h

/-- A computation from a key index above 0xF is the fault of the index (R192, D9). -/
theorem keyOf_map_error (f : Bool → State) {b : Byte} (h : 0xF < b.toNat) :
    (s.keyOf b).map f = .error (.keyIndexOutOfRange b) := by
  rw [keyOf_error h]
  rfl

/-- Settles O38: the key V[x] names decides each skip, and both take the fault of an index that names none. -/
theorem keySkips : Obligations.KeySkips := by
  unfold Obligations.KeySkips
  intro x s
  refine ⟨decodeOfEncodeIsIdentity (.skp x) rfl, decodeOfEncodeIsIdentity (.sknp x) rfl, fun k hk => ?_,
    fun hover => ?_⟩
  · exact ⟨exists_next_of_skipIf (exec_skp_of_key hk), exists_next_of_skipIf_not (exec_sknp_of_key hk)⟩
  · exact ⟨takesFault_of_exec_eq_commit (exec_skp x s) (keyOf_map_error _ hover),
      takesFault_of_exec_eq_commit (exec_sknp x s) (keyOf_map_error _ hover)⟩

/-! ### Waiting for a key -/

theorem exec_ldVxK (x : Nibble) (s : State) : exec (.ldVxK x) s = execLdVxK x s := rfl

/-- LD Vx, K with a key down writes the least one to Vx (R195, D10). -/
theorem exec_ldVxK_of_down (h : s.key k = true) (hleast : ∀ j : Nibble, j.toNat < k.toNat → s.key j = false) :
    exec (.ldVxK x) s = .next (s.advance.setV x (BitVec.ofNat 8 k.toNat)) := by
  rw [exec_ldVxK, execLdVxK, leastKeyDown_some h hleast]

/-- LD Vx, K with no key down rewinds PC to pc0 and records the wait (R195). -/
theorem exec_ldVxK_of_none (h : ∀ k : Nibble, s.key k = false) :
    exec (.ldVxK x) s = .next { s with awaitingKey := true } := by
  rw [exec_ldVxK, execLdVxK, leastKeyDown_none h]
  exact congrArg _ (advance_rewind s)

theorem changesOnlyV_nil_setAwaitingKey (s : State) (b : Bool) : ChangesOnlyV [] s { s with awaitingKey := b } :=
  ⟨fun _ _ => rfl, rfl, ⟨rfl, rfl⟩, ⟨rfl, rfl⟩, fun _ => rfl, ⟨rfl, rfl⟩, ⟨rfl, rfl⟩, rfl⟩

/-- A key index fits a register. -/
theorem toNat_ofNat_key (k : Nibble) : (BitVec.ofNat 8 k.toNat).toNat = k.toNat :=
  Nat.mod_eq_of_lt (Nat.lt_trans k.isLt (by decide))

/-- Settles O39: one register write of the least key down, or nothing but the wait. -/
theorem waitForKeySpinsOrStoresLeast : Obligations.WaitForKeySpinsOrStoresLeast := by
  unfold Obligations.WaitForKeySpinsOrStoresLeast
  intro x s
  refine ⟨decodeOfEncodeIsIdentity (.ldVxK x) rfl, fun k hk hleast => ?_, fun hnone => ?_⟩
  · obtain ⟨t, hdone, hresult, hframe⟩ := exists_completesTo_of_setV (exec_ldVxK_of_down hk hleast)
    exact ⟨t, hdone, hresult ▸ toNat_ofNat_key k, hframe⟩
  · exact ⟨_, exec_ldVxK_of_none hnone, rfl, rfl, changesOnlyV_nil_setAwaitingKey s true⟩

/-! ### Moves between a register and a timer -/

/-- Everything but the timers, PC and `awaiting_key` is as before. -/
def KeepsOutsideTimers (s t : State) : Prop :=
  KeepsV [] s t ∧ t.i = s.i ∧ KeepsStack s t ∧ KeepsMemory s t ∧ KeepsScreen s t ∧ KeepsKeysAndFault s t ∧
    t.draws = s.draws

theorem keepsOutsideTimers_update (s : State) (dt st : Byte) :
    KeepsOutsideTimers s { s.advance with dt := dt, st := st } :=
  ⟨fun _ _ => rfl, rfl, ⟨rfl, rfl⟩, fun _ => rfl, ⟨rfl, rfl⟩, ⟨rfl, rfl⟩, rfl⟩

theorem exec_ldDtVx (x : Nibble) (s : State) : exec (.ldDtVx x) s = .next { s.advance with dt := s.getV x } := rfl

theorem exec_ldStVx (x : Nibble) (s : State) : exec (.ldStVx x) s = .next { s.advance with st := s.getV x } := rfl

/-- Settles O40: one write each, to a register or to one of the timers. -/
theorem timerMoves : Obligations.TimerMoves := by
  unfold Obligations.TimerMoves
  intro x s
  refine ⟨⟨decodeOfEncodeIsIdentity (.ldVxDt x) rfl, exists_completesTo_of_setV rfl⟩,
    ⟨decodeOfEncodeIsIdentity (.ldDtVx x) rfl, ?_⟩, ⟨decodeOfEncodeIsIdentity (.ldStVx x) rfl, ?_⟩⟩
  · exact ⟨_, ⟨exec_ldDtVx x s, rfl, rfl⟩, rfl, rfl, keepsOutsideTimers_update s (s.getV x) s.st⟩
  · exact ⟨_, ⟨exec_ldStVx x s, rfl, rfl⟩, rfl, rfl, keepsOutsideTimers_update s s.dt (s.getV x)⟩

end Sys2Proof.Machine
end

section
/-! SUPPORT. The exceptions and the host's operations (spec rules R213, R214, R221, R231, R233, R235): a step that raises
a fault is one `takeFault` on the state before it, with the word at PC if one was fetched (`step_unfaulted_cases`);
`construct()` aside, no operation on a faulted machine touches the record (`fault_of_perform`); and what each host
operation answers on each side of its guards. -/

namespace Sys2Proof.Machine

variable {s t : State}

/-- Settles O48: every operation answers a state that meets the invariant, and it answers only one. -/
theorem hostOperationsKeepInvariant : Obligations.HostOperationsKeepInvariant := by
  unfold Obligations.HostOperationsKeepInvariant
  intro s o t reply hs h
  obtain ⟨u, reply', hu, hinv⟩ := perform_inv hs o
  cases hu.symm.trans h
  exact hinv

/-! ### A step that raises a fault -/

/-- The opcode a fault of the next step is recorded with: the word at PC, if PC lets it be fetched (R213). -/
def State.faultOpcode (s : State) : Option Word := if s.pc.toNat < 0xFFF then some s.wordAtPc else none

/-- Everything a step of an unfaulted machine can do: leave it unfaulted, or take a fault on the state before. -/
theorem step_unfaulted_cases (hf : s.fault = none) (h : step s = .next t) :
    t.fault = none ∨ ∃ k, t = s.takeFault k s.faultOpcode := by
  by_cases hpc : s.pc.toNat < 0xFFF
  · have hop : s.faultOpcode = some s.wordAtPc := if_pos hpc
    rw [hop]
    cases hd : decode s.wordAtPc with
    | error e =>
      rw [step_of_decode_error hf hpc hd] at h
      cases h
      exact .inr ⟨_, rfl⟩
    | ok i =>
      rw [step_of_decode_ok hf hpc hd] at h
      rcases exec_cases h with he | ⟨k, rfl⟩
      · exact .inl (he.fault_eq.trans hf)
      · obtain ⟨hword, -⟩ := encodeOfDecodeIsIdentity _ i hd
        exact .inr ⟨k, by rw [hword]⟩
  · have hop : s.faultOpcode = none := if_neg hpc
    rw [hop]
    rw [step_of_fetch_error hf (fetch16_error (by unfold memSize; omega))] at h
    cases h
    exact .inr ⟨_, rfl⟩

/-- A step that leaves a fault recorded returns it (R213, R214). -/
theorem perform_step_of_fault {r : FaultRecord} (h : step s = .next t) (hr : t.fault = some r) :
    s.perform .step = .next (t, .stepFault r) := by
  rw [perform_step h, stepReply, hr]

/-- Settles O11: the fault is taken on the state before the step, and its record is the one the step returns. -/
theorem faultingStepDiscardsEveryWrite : Obligations.FaultingStepDiscardsEveryWrite := by
  unfold Obligations.FaultingStepDiscardsEveryWrite
  intro s t r hf hstep hr
  have hreply := perform_step_of_fault hstep hr
  rcases step_unfaulted_cases hf hstep with hnone | ⟨k, rfl⟩
  · cases hnone.symm.trans hr
  · cases hr
    exact ⟨rfl, rfl, rfl, hreply⟩

/-! ### A faulted machine -/

theorem step_faulted (h : s.fault ≠ none) : step s = .next s := by
  obtain ⟨r, hr⟩ := Option.ne_none_iff_exists'.mp h
  simp [step, State.issue, hr]

theorem load_faulted {p : Params} (rom : List Byte) (h : s.fault ≠ none) :
    s.load p rom = .error .machineFaulted := if_pos h

/-- No operation but `construct()` changes a fault record that is there (R214, D18). -/
theorem fault_of_perform {o : HostOp} {reply : Reply} (hf : s.fault ≠ none) (ho : o ≠ .construct)
    (h : s.perform o = .next (t, reply)) : t.fault = s.fault := by
  cases o with
  | construct => exact absurd rfl ho
  | load rom =>
    rw [perform_load_error (load_faulted rom hf)] at h
    cases h
    rfl
  | step =>
    rw [perform_step (step_faulted hf)] at h
    cases h
    rfl
  | tickTimers =>
    cases h
    rw [tickTimers_faulted hf]
  | setKey k down =>
    cases h
    exact s.setKey_fault k down
  | ackRedraw =>
    cases h
    exact s.ackRedraw_fault

/-- A key after one was set: that key as it was set, and every other as before (R233). -/
theorem key_setKey (s : State) (k j : Nibble) (d : Bool) : (s.setKey k d).key j = if k = j then d else s.key j := by
  simp only [State.key, State.setKey_keys, Vector.getElem_set, BitVec.toNat_inj]

@[simp] theorem key_setKey_self (s : State) (k : Nibble) (d : Bool) : (s.setKey k d).key k = d := by
  simp [key_setKey]

/-- Settles O10, operation by operation; `fault_of_perform` says that none but `construct()` clears the record. -/
theorem faultedMachineIsFrozen : Obligations.FaultedMachineIsFrozen := by
  unfold Obligations.FaultedMachineIsFrozen
  intro s r hr
  have hf : s.fault ≠ none := by simp [hr]
  refine ⟨step_faulted hf, perform_step_of_fault (step_faulted hf) hr, ?_, fun rom => ?_, fun k d => ?_, ?_,
    fun o t reply ho h => ?_, ?_⟩
  · change Host.Outcome.next (s.tickTimers, Reply.ok) = _
    rw [tickTimers_faulted hf]
  · exact perform_load_error (load_faulted rom hf)
  · exact ⟨s.setKey k d, rfl, key_setKey_self s k d, hr⟩
  · exact ⟨s.ackRedraw, rfl, rfl, hr⟩
  · exact (fault_of_perform hf ho h).trans hr
  · exact ⟨s.construct, rfl, rfl⟩

/-! ### The timers, the ROM and the two flags -/

/-- Settles O41: a tick writes the two timers, and `toNat_tickByte` says what to each. -/
theorem tickLowersBothTimers : Obligations.TickLowersBothTimers := by
  unfold Obligations.TickLowersBothTimers
  intro s hf
  refine ⟨s.tickTimers, rfl, ?_⟩
  rw [tickTimers_eq hf]
  exact ⟨toNat_tickByte s.dt, toNat_tickByte s.st, rfl⟩

theorem load_tooLarge {p : Params} {rom : List Byte} (hf : s.fault = none) (h : maxRom < rom.length) :
    s.load p rom = .error (.romTooLarge rom.length) := by
  simp [State.load, hf, h]

theorem load_ok {p : Params} {rom : List Byte} (hf : s.fault = none) (h : rom.length ≤ maxRom) :
    s.load p rom = .ok { s with mem := memStoreAll p s.mem programBase rom } := by
  simp [State.load, hf, Nat.not_lt.mpr h]

/-- Settles O42: the two refusals, or one `memStoreAll` of the ROM from 0x200 on. -/
theorem loadCopiesRomVerbatim : Obligations.LoadCopiesRomVerbatim := by
  unfold Obligations.LoadCopiesRomVerbatim
  intro s rom
  refine ⟨fun hf => perform_load_error (load_faulted rom hf),
    fun hf hlong => perform_load_error (load_tooLarge hf hlong), fun hf hfits => ?_⟩
  refine ⟨_, perform_load_ok (load_ok hf hfits), rfl, fun k hk => ?_, fun a ha => ?_⟩
  · have hbyte := List.getElem?_eq_getElem hk
    rw [hbyte]
    exact congrArg some (memLookup_memStoreAll_add specParams s.mem programBase hbyte).symm
  · exact memLookup_memStoreAll_outside specParams rom s.mem ha

/-- Settles O43: one write to the keypad image (`key_setKey`), one to the flag. -/
theorem setKeyAndAckRedraw : Obligations.SetKeyAndAckRedraw := by
  unfold Obligations.SetKeyAndAckRedraw
  intro s k d
  refine ⟨⟨s.setKey k d, rfl, key_setKey_self s k d, fun j hj => ?_, rfl⟩, s.ackRedraw, rfl, rfl⟩
  rw [key_setKey, if_neg (Ne.symm hj)]

end Sys2Proof.Machine
end

section
/-! SUPPORT. Reset and hazards (spec rules R250, R251, R253, R262): the reset state field by field, the first word of a
loaded program, and the self-jump at which a run stops. -/

namespace Sys2Proof.Machine

/-! ### The reset state -/

@[simp] theorem getV_reset (x : Nibble) : State.reset.getV x = 0#8 := by
  simp [State.getV, State.reset]

@[simp] theorem key_reset (k : Nibble) : State.reset.key k = false := by
  simp [State.key, State.reset]

theorem stack_reset (k : Fin 16) : State.reset.stack[k] = 0#16 := by
  simp [State.reset]

/-- Reset memory is 0 below the font and above it (R35, R250). -/
theorem byteAt_reset_outside_font (p : Params) {a : Nat} (h : a < p.fontBase.toNat ∨ p.fontBase.toNat + 80 ≤ a) :
    State.reset.byteAt p a = 0#8 := by
  change initialByte p a = 0#8
  unfold initialByte
  rcases h with hbelow | habove
  · exact if_neg (Nat.not_le.mpr hbelow)
  · have hnone : p.fontData.toList[a - p.fontBase.toNat]? = none :=
      List.getElem?_eq_none (by rw [Vector.length_toList]; omega)
    rw [hnone, Option.getD_none, ite_self]

/-- Settles O44: `construct()` writes the reset state around the draw counter, and the laws of the reset state say what
each field of it holds. -/
theorem constructLeavesResetState : Obligations.ConstructLeavesResetState := by
  unfold Obligations.ConstructLeavesResetState
  intro s
  refine ⟨⟨s.construct, rfl, rfl⟩, getV_reset, rfl, rfl, rfl, stack_reset, rfl, rfl, fun p j => ?_,
    fun p _ => byteAt_reset_outside_font p, getPixel_clearDisplay, key_reset, rfl, rfl, rfl⟩
  have hfont := byteAt_reset_font p j.isLt
  rw [Vector.getElem?_toList, Vector.getElem?_eq_getElem j.isLt] at hfont
  exact (Option.some.inj hfont).symm

/-- Settles O46: the reset state is what `construct()` makes of itself, and what `construct()` leaves meets the
invariant. -/
theorem resetMeetsInvariant : Obligations.ResetMeetsInvariant := by
  unfold Obligations.ResetMeetsInvariant
  exact construct_inv State.reset

/-! ### The first step of a loaded program -/

/-- Bytes stored from PC on begin with the word at PC. -/
theorem wordAtPc_memStoreAll (s : State) (hi lo : Byte) (rest : List Byte) :
    ({ s with mem := memStoreAll specParams s.mem s.pc.toNat (hi :: lo :: rest) } : State).wordAtPc =
      wordOfBytes hi lo :=
  congrArg₂ wordOfBytes (memLookup_memStoreAll_add specParams s.mem s.pc.toNat (k := 0) rfl)
    (memLookup_memStoreAll_add specParams s.mem s.pc.toNat (k := 1) rfl)

/-- Settles O45: after `construct()` PC is where `load` puts the ROM, so the ROM's first word is the word at PC. -/
theorem loadedProgramStartsAtItsFirstWord : Obligations.LoadedProgramStartsAtItsFirstWord := by
  unfold Obligations.LoadedProgramStartsAtItsFirstWord
  intro s hi lo rest i hlen hdecode
  have hfits : (hi :: lo :: rest).length ≤ maxRom := Nat.add_le_add_right hlen 2
  refine ⟨_, load_ok rfl hfits, rfl, step_of_decode_ok rfl (show (0x200#16).toNat < 0xFFF by decide) ?_⟩
  exact (congrArg decode (wordAtPc_memStoreAll s.construct hi lo rest)).trans hdecode

/-! ### The self-jump -/

/-- A jump to the PC before the step moves nothing, and only `awaiting_key` is cleared (R72, R102). -/
theorem advance_setPc_self (s : State) : s.advance.setPc s.pc = { s with awaitingKey := false } := rfl

/-- Settles O56: the step runs JP to PC itself, and what it leaves has the same PC, memory and fault. -/
theorem selfJumpStopsTheRun : Obligations.SelfJumpStopsTheRun := by
  unfold Obligations.SelfJumpStopsTheRun
  rintro s ⟨hf, hpc, nnn, hword, hnnn⟩
  have hself : zext16 nnn = s.pc := BitVec.eq_of_toNat_eq ((toNat_zext16 nnn).trans hnnn)
  have hdecode : decode s.wordAtPc = .ok (.jp nnn) := by
    rw [hword]
    exact decodeOfEncodeIsIdentity (.jp nnn) rfl
  refine ⟨?_, hf, hpc, nnn, hword, hnnn⟩
  calc step s = .next (s.advance.setPc (zext16 nnn)) := step_of_decode_ok hf hpc hdecode
    _ = .next { s with awaitingKey := false } := by rw [hself, advance_setPc_self]

end Sys2Proof.Machine
end
